-- ==== Sys2Proof/Word.lean ====
section
/-! DEFINITION. The bit-vector types of the CORE: bytes, 16-bit words, 12-bit addresses and the 4-bit indices (R7 of 00_scope.md, R61 of 30_encoding.md). -/

namespace Sys2Proof

/-- An 8-bit quantity: a general register, a timer, a memory byte, an immediate `kk`. -/
abbrev Byte := BitVec 8

/-- A 16-bit quantity: `I`, `PC`, a stack entry, an opcode. -/
abbrev Word := BitVec 16

/-- The 12-bit address field `nnn`. -/
abbrev Addr := BitVec 12

/-- A register index, `0x0` to `0xF`; index `0xF` is `VF` (R10, R11). -/
abbrev RegIdx := BitVec 4

/-- A key index; the host's port is 4 bits wide (R179). -/
abbrev KeyIdx := BitVec 4

end Sys2Proof
end

