-- ==== Sys2Proof/Config.lean ====
section
/-! DEFINITION. What is fixed for the machine: the sizes of R5 (00_scope.md), the parameter `GLYPH_TABLE` of R6, and the free values the spec leaves open. -/

namespace Sys2Proof.Config

/-- `MEM_SIZE` (R5): addresses 0x000 to 0xFFF. -/
abbrev memSize : Nat := 4096

/-- `PROG_BASE` (R5): the first address of program space. -/
abbrev progBase : Nat := 0x200

/-- `PROG_CAP` (R5): the size of program space in bytes. -/
abbrev progCap : Nat := 3584

/-- `STACK_CAP` (R5): the number of return addresses the call stack holds. -/
abbrev stackCap : Nat := 12

/-- `RESET_PC` (R5): the entry point. -/
abbrev resetPc : Word := 0x200

/-- The number of bytes of the glyph table, 16 glyphs of 5 bytes (R5), based at address 0 (R42). -/
abbrev glyphBytes : Nat := 80

/-- `VF`, the register that doubles as the flag (R11). -/
abbrev flagReg : RegIdx := 0xF

/-- `GLYPH_TABLE` (R6, R43, D14): 80 bytes the spec leaves open, so no proof can see one of them (log 6). -/
opaque glyphTable : Vector Byte 80

/-- The conventional font, transcribed from the table of R43 (general knowledge, by the spec's own mark): a value to name in
a premise about `glyphTable`; nothing in the machine uses it. -/
def conventionalGlyphs : Vector Byte 80 :=
  (#v[0xF0, 0x90, 0x90, 0x90, 0xF0, 0x20, 0x60, 0x20, 0x20, 0x70] : Vector Byte 10) ++
  (#v[0xF0, 0x10, 0xF0, 0x80, 0xF0, 0xF0, 0x10, 0xF0, 0x10, 0xF0] : Vector Byte 10) ++
  (#v[0x90, 0x90, 0xF0, 0x10, 0x10, 0xF0, 0x80, 0xF0, 0x10, 0xF0] : Vector Byte 10) ++
  (#v[0xF0, 0x80, 0xF0, 0x90, 0xF0, 0xF0, 0x10, 0x20, 0x40, 0x40] : Vector Byte 10) ++
  (#v[0xF0, 0x90, 0xF0, 0x90, 0xF0, 0xF0, 0x90, 0xF0, 0x10, 0xF0] : Vector Byte 10) ++
  (#v[0xF0, 0x90, 0xF0, 0x90, 0x90, 0xE0, 0x90, 0xE0, 0x90, 0xE0] : Vector Byte 10) ++
  (#v[0xF0, 0x80, 0x80, 0x80, 0xF0, 0xE0, 0x90, 0x90, 0x90, 0xE0] : Vector Byte 10) ++
  (#v[0xF0, 0x80, 0xF0, 0x80, 0xF0, 0xF0, 0x80, 0xF0, 0x80, 0x80] : Vector Byte 10)

/-- `rand8()` (R121, D17): the byte of the `k`-th draw, a free value (log 5). -/
opaque rand8 : Nat → Byte

/-- What the elements of the state other than `HALTED` and `ERR` may hold after a fatal error (R167): any value of its width each. -/
structure AfterError where
  v     : Vector Byte 16
  i     : Word
  pc    : Word
  stack : Vector Word 12
  sp    : Fin 13
  dt    : Byte
  st    : Byte
  key   : Vector Bool 16
  fb    : Vector (Vector Bool 64) 32
  dirty : Bool
  mem   : Nat → Byte
  deriving Inhabited

/-- The unspecified state left by the fatal error that takes the `k`-th free value (R167, C4, D8), a free value (log 2). -/
opaque afterError : Nat → AfterError

end Sys2Proof.Config
end

