-- ==== Sys2Proof/Syntax.lean ====
section
/-! DEFINITION. The 34 instructions (R64 of 30_encoding.md), one constructor per row of spec/opcode_table.json, in the table's order. Operands carry the widths of the fields of R61, every value of which is legal (R63). -/

namespace Sys2Proof

/-- An instruction: `x` and `y` are register indices, `kk` an 8-bit immediate, `n` a row count, `nnn` an address. -/
inductive Instr where
  /-- `00E0` (R140) -/
  | clearDisplay
  /-- `00EE` (R100) -/
  | ret
  /-- `1nnn` (R101) -/
  | jump (nnn : Addr)
  /-- `2nnn` (R102) -/
  | call (nnn : Addr)
  /-- `3xkk` (R103) -/
  | skipEqImm (x : RegIdx) (kk : Byte)
  /-- `4xkk` (R104) -/
  | skipNeImm (x : RegIdx) (kk : Byte)
  /-- `5xy0` (R105) -/
  | skipEqReg (x y : RegIdx)
  /-- `6xkk` (R110) -/
  | setImm (x : RegIdx) (kk : Byte)
  /-- `7xkk` (R111) -/
  | addImm (x : RegIdx) (kk : Byte)
  /-- `8xy0` (R112) -/
  | setReg (x y : RegIdx)
  /-- `8xy1` (R113) -/
  | orReg (x y : RegIdx)
  /-- `8xy2` (R114) -/
  | andReg (x y : RegIdx)
  /-- `8xy3` (R115) -/
  | xorReg (x y : RegIdx)
  /-- `8xy4` (R116) -/
  | addReg (x y : RegIdx)
  /-- `8xy5` (R117) -/
  | subReg (x y : RegIdx)
  /-- `8xy6` (R118) -/
  | shiftRight (x y : RegIdx)
  /-- `8xy7` (R119) -/
  | subRegReverse (x y : RegIdx)
  /-- `8xyE` (R120) -/
  | shiftLeft (x y : RegIdx)
  /-- `9xy0` (R106) -/
  | skipNeReg (x y : RegIdx)
  /-- `Annn` (R130) -/
  | setIndex (nnn : Addr)
  /-- `Bnnn` (R107) -/
  | jumpWithOffset (nnn : Addr)
  /-- `Cxkk` (R121) -/
  | randomAnd (x : RegIdx) (kk : Byte)
  /-- `Dxyn` (R141) -/
  | drawSprite (x y : RegIdx) (n : BitVec 4)
  /-- `Ex9E` (R150) -/
  | skipIfKeyPressed (x : RegIdx)
  /-- `ExA1` (R151) -/
  | skipIfKeyNotPressed (x : RegIdx)
  /-- `Fx07` (R152) -/
  | getDelayTimer (x : RegIdx)
  /-- `Fx0A` (R153) -/
  | waitForKey (x : RegIdx)
  /-- `Fx15` (R154) -/
  | setDelayTimer (x : RegIdx)
  /-- `Fx18` (R155) -/
  | setSoundTimer (x : RegIdx)
  /-- `Fx1E` (R131) -/
  | addToIndex (x : RegIdx)
  /-- `Fx29` (R132) -/
  | setIndexToGlyph (x : RegIdx)
  /-- `Fx33` (R133) -/
  | storeBcd (x : RegIdx)
  /-- `Fx55` (R134) -/
  | storeRegisters (x : RegIdx)
  /-- `Fx65` (R135) -/
  | loadRegisters (x : RegIdx)
  deriving DecidableEq, Repr

end Sys2Proof
end

