-- ==== Sys2Proof/WellFormed.lean ====
section
/-! DEFINITION. Which words and images are well formed: the opcode map of R64 (30_encoding.md) as (match, mask) rows, the legal words it leaves (R65, R66), and the length bound of an image (R192, R193 of 70_reset_and_hazards.md). -/

namespace Sys2Proof

/-- One row of the opcode map (R64): a word is selected when `word AND mask = match` (R62). -/
structure OpcodeRow where
  mnemonic : String
  matchVal : Word
  mask     : Word
  deriving DecidableEq, Repr

/-- Rows 1 to 17 of the opcode map (R64). -/
def opcodeRowsLow : List OpcodeRow := [
  ⟨"clear-display", 0x00E0, 0xFFFF⟩, ⟨"return", 0x00EE, 0xFFFF⟩,
  ⟨"jump", 0x1000, 0xF000⟩, ⟨"call", 0x2000, 0xF000⟩,
  ⟨"skip-eq-imm", 0x3000, 0xF000⟩, ⟨"skip-ne-imm", 0x4000, 0xF000⟩, ⟨"skip-eq-reg", 0x5000, 0xF00F⟩,
  ⟨"set-imm", 0x6000, 0xF000⟩, ⟨"add-imm", 0x7000, 0xF000⟩,
  ⟨"set-reg", 0x8000, 0xF00F⟩, ⟨"or-reg", 0x8001, 0xF00F⟩, ⟨"and-reg", 0x8002, 0xF00F⟩, ⟨"xor-reg", 0x8003, 0xF00F⟩,
  ⟨"add-reg", 0x8004, 0xF00F⟩, ⟨"sub-reg", 0x8005, 0xF00F⟩, ⟨"shift-right", 0x8006, 0xF00F⟩,
  ⟨"sub-reg-reverse", 0x8007, 0xF00F⟩]

/-- Rows 18 to 34 of the opcode map (R64). -/
def opcodeRowsHigh : List OpcodeRow := [
  ⟨"shift-left", 0x800E, 0xF00F⟩, ⟨"skip-ne-reg", 0x9000, 0xF00F⟩,
  ⟨"set-index", 0xA000, 0xF000⟩, ⟨"jump-with-offset", 0xB000, 0xF000⟩, ⟨"random-and", 0xC000, 0xF000⟩,
  ⟨"draw-sprite", 0xD000, 0xF000⟩,
  ⟨"skip-if-key-pressed", 0xE09E, 0xF0FF⟩, ⟨"skip-if-key-not-pressed", 0xE0A1, 0xF0FF⟩,
  ⟨"get-delay-timer", 0xF007, 0xF0FF⟩, ⟨"wait-for-key", 0xF00A, 0xF0FF⟩,
  ⟨"set-delay-timer", 0xF015, 0xF0FF⟩, ⟨"set-sound-timer", 0xF018, 0xF0FF⟩,
  ⟨"add-to-index", 0xF01E, 0xF0FF⟩, ⟨"set-index-to-glyph", 0xF029, 0xF0FF⟩, ⟨"store-bcd", 0xF033, 0xF0FF⟩,
  ⟨"store-registers", 0xF055, 0xF0FF⟩, ⟨"load-registers", 0xF065, 0xF0FF⟩]

/-- The opcode map (R64), 34 rows. -/
def opcodeRows : List OpcodeRow := opcodeRowsLow ++ opcodeRowsHigh

/-- `op AND mask = match` (R62). -/
def OpcodeRow.selects (row : OpcodeRow) (op : Word) : Bool := op &&& row.mask == row.matchVal

/-- A word is legal when some row selects it; every other word is illegal (R66). -/
def legalWord (op : Word) : Bool := opcodeRows.any (·.selects op)

/-- The name of an instruction in the opcode map (R64). Every term of `Instr` is well formed: its fields have exactly the
widths of R61, and every value of a field is legal (R63). -/
def Instr.mnemonic : Instr → String
  | .clearDisplay => "clear-display"
  | .ret => "return"
  | .jump _ => "jump"
  | .call _ => "call"
  | .skipEqImm _ _ => "skip-eq-imm"
  | .skipNeImm _ _ => "skip-ne-imm"
  | .skipEqReg _ _ => "skip-eq-reg"
  | .setImm _ _ => "set-imm"
  | .addImm _ _ => "add-imm"
  | .setReg _ _ => "set-reg"
  | .orReg _ _ => "or-reg"
  | .andReg _ _ => "and-reg"
  | .xorReg _ _ => "xor-reg"
  | .addReg _ _ => "add-reg"
  | .subReg _ _ => "sub-reg"
  | .shiftRight _ _ => "shift-right"
  | .subRegReverse _ _ => "sub-reg-reverse"
  | .shiftLeft _ _ => "shift-left"
  | .skipNeReg _ _ => "skip-ne-reg"
  | .setIndex _ => "set-index"
  | .jumpWithOffset _ => "jump-with-offset"
  | .randomAnd _ _ => "random-and"
  | .drawSprite _ _ _ => "draw-sprite"
  | .skipIfKeyPressed _ => "skip-if-key-pressed"
  | .skipIfKeyNotPressed _ => "skip-if-key-not-pressed"
  | .getDelayTimer _ => "get-delay-timer"
  | .waitForKey _ => "wait-for-key"
  | .setDelayTimer _ => "set-delay-timer"
  | .setSoundTimer _ => "set-sound-timer"
  | .addToIndex _ => "add-to-index"
  | .setIndexToGlyph _ => "set-index-to-glyph"
  | .storeBcd _ => "store-bcd"
  | .storeRegisters _ => "store-registers"
  | .loadRegisters _ => "load-registers"

/-- An image may be loaded when it fits program space (R192, R193). -/
def imageFits (bytes : List Byte) : Bool := decide (bytes.length ≤ Config.progCap)

end Sys2Proof
end

