-- ==== Sys2Proof/Decode.lean ====
section
/-! DEFINITION. Decoding (R60 to R66 of 30_encoding.md): the fields of a word, the decoder, total on any word and any bytes, rejecting by name; then the encoder, written from the same opcode map (R64). -/

namespace Sys2Proof

/-- The big-endian word of two bytes: the first byte is the more significant (R47, R60). -/
def wordOfBytes (hi lo : Byte) : Word := hi ++ lo

/-- The two bytes of a word as memory stores them, most significant first (R60). -/
def bytesOfWord (op : Word) : List Byte := [op.extractLsb' 8 8, op.extractLsb' 0 8]

/-- `f = op[15:12]`, the family (R61). -/
def fieldF (op : Word) : BitVec 4 := op.extractLsb' 12 4

/-- `x = op[11:8]` (R61). -/
def fieldX (op : Word) : RegIdx := op.extractLsb' 8 4

/-- `y = op[7:4]` (R61). -/
def fieldY (op : Word) : RegIdx := op.extractLsb' 4 4

/-- `n = op[3:0]` (R61). -/
def fieldN (op : Word) : BitVec 4 := op.extractLsb' 0 4

/-- `kk = op[7:0]` (R61). -/
def fieldKK (op : Word) : Byte := op.extractLsb' 0 8

/-- `nnn = op[11:0]` (R61). -/
def fieldNNN (op : Word) : Addr := op.extractLsb' 0 12

/-- Why bytes do not decode. -/
inductive DecodeError where
  /-- The word matches no row of the opcode map (R66). -/
  | unknownOpcode (op : Word)
  /-- Fewer than the two bytes of an instruction (R60). -/
  | truncated
  deriving DecidableEq, Repr

/-- The sub-opcodes of family 8, selected by `n` (R65). -/
def decodeFamily8 (op : Word) : Except DecodeError Instr :=
  match fieldN op with
  | 0x0#4 => .ok (.setReg (fieldX op) (fieldY op))
  | 0x1#4 => .ok (.orReg (fieldX op) (fieldY op))
  | 0x2#4 => .ok (.andReg (fieldX op) (fieldY op))
  | 0x3#4 => .ok (.xorReg (fieldX op) (fieldY op))
  | 0x4#4 => .ok (.addReg (fieldX op) (fieldY op))
  | 0x5#4 => .ok (.subReg (fieldX op) (fieldY op))
  | 0x6#4 => .ok (.shiftRight (fieldX op) (fieldY op))
  | 0x7#4 => .ok (.subRegReverse (fieldX op) (fieldY op))
  | 0xE#4 => .ok (.shiftLeft (fieldX op) (fieldY op))
  | _ => .error (.unknownOpcode op)

/-- The sub-opcodes of family E, selected by `kk` (R65). -/
def decodeFamilyE (op : Word) : Except DecodeError Instr :=
  match fieldKK op with
  | 0x9E#8 => .ok (.skipIfKeyPressed (fieldX op))
  | 0xA1#8 => .ok (.skipIfKeyNotPressed (fieldX op))
  | _ => .error (.unknownOpcode op)

/-- The sub-opcodes of family F, selected by `kk` (R65). -/
def decodeFamilyF (op : Word) : Except DecodeError Instr :=
  match fieldKK op with
  | 0x07#8 => .ok (.getDelayTimer (fieldX op))
  | 0x0A#8 => .ok (.waitForKey (fieldX op))
  | 0x15#8 => .ok (.setDelayTimer (fieldX op))
  | 0x18#8 => .ok (.setSoundTimer (fieldX op))
  | 0x1E#8 => .ok (.addToIndex (fieldX op))
  | 0x29#8 => .ok (.setIndexToGlyph (fieldX op))
  | 0x33#8 => .ok (.storeBcd (fieldX op))
  | 0x55#8 => .ok (.storeRegisters (fieldX op))
  | 0x65#8 => .ok (.loadRegisters (fieldX op))
  | _ => .error (.unknownOpcode op)

/-- The decoder of R65: the family nibble first, then the sub-opcodes of a family. -/
def decodeWord (op : Word) : Except DecodeError Instr :=
  match fieldF op with
  | 0x0#4 =>
    if op = 0x00E0 then .ok .clearDisplay
    else if op = 0x00EE then .ok .ret
    else .error (.unknownOpcode op)
  | 0x1#4 => .ok (.jump (fieldNNN op))
  | 0x2#4 => .ok (.call (fieldNNN op))
  | 0x3#4 => .ok (.skipEqImm (fieldX op) (fieldKK op))
  | 0x4#4 => .ok (.skipNeImm (fieldX op) (fieldKK op))
  | 0x5#4 => if fieldN op = 0 then .ok (.skipEqReg (fieldX op) (fieldY op)) else .error (.unknownOpcode op)
  | 0x6#4 => .ok (.setImm (fieldX op) (fieldKK op))
  | 0x7#4 => .ok (.addImm (fieldX op) (fieldKK op))
  | 0x8#4 => decodeFamily8 op
  | 0x9#4 => if fieldN op = 0 then .ok (.skipNeReg (fieldX op) (fieldY op)) else .error (.unknownOpcode op)
  | 0xA#4 => .ok (.setIndex (fieldNNN op))
  | 0xB#4 => .ok (.jumpWithOffset (fieldNNN op))
  | 0xC#4 => .ok (.randomAnd (fieldX op) (fieldKK op))
  | 0xD#4 => .ok (.drawSprite (fieldX op) (fieldY op) (fieldN op))
  | 0xE#4 => decodeFamilyE op
  | 0xF#4 => decodeFamilyF op
  | _ => .error (.unknownOpcode op)  -- no nibble is left: the sixteen are listed

/-- Decode the instruction at the head of a byte sequence and return the bytes after it (R60). -/
def decodeBytes : List Byte → Except DecodeError (Instr × List Byte)
  | hi :: lo :: rest =>
    match decodeWord (wordOfBytes hi lo) with
    | .ok i => .ok (i, rest)
    | .error e => .error e
  | [_] => .error .truncated
  | [] => .error .truncated

/-- The word of an instruction (R64): the fixed bits of its row with its operands in the fields of R61. -/
def encode : Instr → Word
  | .clearDisplay => 0x00E0
  | .ret => 0x00EE
  | .jump nnn => 0x1#4 ++ nnn
  | .call nnn => 0x2#4 ++ nnn
  | .skipEqImm x kk => 0x3#4 ++ x ++ kk
  | .skipNeImm x kk => 0x4#4 ++ x ++ kk
  | .skipEqReg x y => 0x5#4 ++ x ++ y ++ 0x0#4
  | .setImm x kk => 0x6#4 ++ x ++ kk
  | .addImm x kk => 0x7#4 ++ x ++ kk
  | .setReg x y => 0x8#4 ++ x ++ y ++ 0x0#4
  | .orReg x y => 0x8#4 ++ x ++ y ++ 0x1#4
  | .andReg x y => 0x8#4 ++ x ++ y ++ 0x2#4
  | .xorReg x y => 0x8#4 ++ x ++ y ++ 0x3#4
  | .addReg x y => 0x8#4 ++ x ++ y ++ 0x4#4
  | .subReg x y => 0x8#4 ++ x ++ y ++ 0x5#4
  | .shiftRight x y => 0x8#4 ++ x ++ y ++ 0x6#4
  | .subRegReverse x y => 0x8#4 ++ x ++ y ++ 0x7#4
  | .shiftLeft x y => 0x8#4 ++ x ++ y ++ 0xE#4
  | .skipNeReg x y => 0x9#4 ++ x ++ y ++ 0x0#4
  | .setIndex nnn => 0xA#4 ++ nnn
  | .jumpWithOffset nnn => 0xB#4 ++ nnn
  | .randomAnd x kk => 0xC#4 ++ x ++ kk
  | .drawSprite x y n => 0xD#4 ++ x ++ y ++ n
  | .skipIfKeyPressed x => 0xE#4 ++ x ++ 0x9E#8
  | .skipIfKeyNotPressed x => 0xE#4 ++ x ++ 0xA1#8
  | .getDelayTimer x => 0xF#4 ++ x ++ 0x07#8
  | .waitForKey x => 0xF#4 ++ x ++ 0x0A#8
  | .setDelayTimer x => 0xF#4 ++ x ++ 0x15#8
  | .setSoundTimer x => 0xF#4 ++ x ++ 0x18#8
  | .addToIndex x => 0xF#4 ++ x ++ 0x1E#8
  | .setIndexToGlyph x => 0xF#4 ++ x ++ 0x29#8
  | .storeBcd x => 0xF#4 ++ x ++ 0x33#8
  | .storeRegisters x => 0xF#4 ++ x ++ 0x55#8
  | .loadRegisters x => 0xF#4 ++ x ++ 0x65#8

/-- The two bytes of an instruction as an image holds them (R71). -/
def encodeBytes (i : Instr) : List Byte := bytesOfWord (encode i)

/-- The word of `nbits` bits numbered as spec/opcode_table.json numbers it; the bits above `nbits` are 0 (log 16). -/
def tableWord (nbits w : Nat) : Word := BitVec.ofNat 16 (w % 2 ^ nbits)

/-- What the decoder reads from the bytes of an opcode-table word. -/
def decodeTableWord (nbits w : Nat) : Option Instr :=
  match decodeBytes (bytesOfWord (tableWord nbits w)) with
  | .ok (i, _) => some i
  | .error _ => none

end Sys2Proof
end

