-- ==== Sys2Proof/Machine/State.lean ====
section
/-! DEFINITION. The state of the CORE (10_state.md, complete by R25), the reasons a step can stop, and the state after reset (R28, R190). -/

namespace Sys2Proof.Machine

/-- The five fatal errors (R160 of 60_exceptions.md). -/
inductive ErrorKind where
  /-- R161: raised at fetch. -/
  | pcOutOfBounds
  /-- R162: raised by `return`. -/
  | stackUnderflow
  /-- R163: raised by `call`. -/
  | stackOverflow
  /-- R164: raised by `draw-sprite`, `store-bcd`, `store-registers`, `load-registers`. -/
  | memoryAccessOutOfBounds
  /-- R165: raised at decode. -/
  | unknownOpcode
  deriving DecidableEq, Repr

/-- The record `ERR` (R24): the error, the address the failing instruction was fetched from, and the word fetched (absent
for `pcOutOfBounds`, where nothing was fetched). -/
structure ErrorRecord where
  kind   : ErrorKind
  addr   : Word
  opcode : Option Word
  deriving DecidableEq, Repr

/-- The memory `MEM`: the bytes that differ from the reset contents, by rising address (log 7). -/
abbrev Memory := List Host.Cell

/-- The framebuffer `FB`: 32 rows of 64 cells (R19). -/
abbrev Framebuffer := Vector (Vector Bool 64) 32

/-- The state tuple of 10_state.md, and the model's own counter `draws` (log 5). -/
structure State where
  /-- `V[0..15]` (R10); `V[15]` is `VF` (R11) -/
  v      : Vector Byte 16
  /-- `I` (R12) -/
  i      : Word
  /-- `PC` (R13) -/
  pc     : Word
  /-- `STACK[0..11]` (R15) -/
  stack  : Vector Word 12
  /-- `SP`, the stack depth (R15) -/
  sp     : Nat
  /-- `DT` (R16) -/
  dt     : Byte
  /-- `ST` (R17) -/
  st     : Byte
  /-- `KEY[0..15]` (R18) -/
  key    : Vector Bool 16
  /-- `FB[0..31][0..63]` (R19) -/
  fb     : Framebuffer
  /-- `DIRTY` (R22) -/
  dirty  : Bool
  /-- `MEM[0..4095]` (R21) -/
  mem    : Memory
  /-- `HALTED` (R24) -/
  halted : Bool
  /-- `ERR` (R24) -/
  err    : Option ErrorRecord
  /-- the number of free values taken so far (the model's own; log 5) -/
  draws  : Nat
  deriving DecidableEq, Repr

/-- Why a step has no next state. -/
inductive Fault where
  /-- Raised by `step` on a halted CORE: it returns the recorded `ERR` and has no successor but reset (R87). Safe. -/
  | halted (err : Option ErrorRecord)
  /-- Raised by `skip-if-key-pressed` and `skip-if-key-not-pressed` fetched at `addr` when the tested register exceeds 15:
  the outcome `Unspecified` of R168. Safe. -/
  | keyIndexOutOfRange (addr : Word)
  deriving DecidableEq, Repr

/-- Why an instruction has no meaning. -/
inductive Refusal where
  /-- Raised by an arm of `exec` whose instruction is not modelled yet; no arm is left so. Safe. -/
  | notModelled (mnemonic : String)
  deriving DecidableEq, Repr

/-- The outcome of a step or of an instruction. -/
abbrev StepOutcome := Host.Outcome State Fault Refusal

/-- The framebuffer with every cell off. -/
def clearedFb : Framebuffer := Vector.replicate 32 (Vector.replicate 64 false)

/-- The reset state (R28, R190). Memory lists nothing: it holds the reset contents (log 7). -/
def State.reset : State where
  v := Vector.replicate 16 0
  i := 0
  pc := Config.resetPc
  stack := Vector.replicate 12 0
  sp := 0
  dt := 0
  st := 0
  key := Vector.replicate 16 false
  fb := clearedFb
  dirty := false
  mem := []
  halted := false
  err := none
  draws := 0

end Sys2Proof.Machine
end

