-- ==== Sys2Proof/Machine/Memory.lean ====
section
/-! DEFINITION. Memory (20_memory.md): the reset contents, reading and writing one byte, blocks of bytes, and the canonical form. -/

namespace Sys2Proof.Machine

/-- The reset contents (R28, R41, R42): the glyph table at 0x000 to 0x04F and 0 elsewhere. An address the list does not name
reads as this. -/
def Memory.resetByte (a : Nat) : Byte := if h : a < Config.glyphBytes then Config.glyphTable[a] else 0

/-- `MEM[a]`. -/
def Memory.read : Memory → Nat → Byte
  | [], a => Memory.resetByte a
  | (b, w) :: m, a => if a = b then w else Memory.read m a

/-- The list without an entry for `a`, so that `a` reads as its reset byte. -/
def Memory.erase (m : Memory) (a : Nat) : Memory := m.filter fun c => c.1 ≠ a

/-- The list with the entry `(a, v)` before the entries of higher addresses. -/
def Memory.insert : Memory → Nat → Byte → Memory
  | [], a, v => [(a, v)]
  | (b, w) :: m, a, v => if a < b then (a, v) :: (b, w) :: m else (b, w) :: Memory.insert m a v

/-- `MEM[a] <- v`, keeping the canonical form: writing the reset byte of an address takes its entry out. -/
def Memory.write (m : Memory) (a : Nat) (v : Byte) : Memory :=
  if v = Memory.resetByte a then m.erase a else (m.erase a).insert a v

/-- The canonical form: addresses strictly rising and inside memory, no entry equal to its address's reset byte. -/
abbrev Memory.wf (m : Memory) : Prop :=
  m.Pairwise (fun c d => c.1 < d.1) ∧ ∀ c ∈ m, c.1 < Config.memSize ∧ c.2 ≠ Memory.resetByte c.1

/-- The memory whose byte at each address `a` below 4096 is `f a`, in canonical form. -/
@[irreducible] def Memory.ofBytes (f : Nat → Byte) : Memory :=
  (List.range Config.memSize).filterMap fun a => if f a = Memory.resetByte a then none else some (a, f a)

/-- Single-byte writes at ascending addresses from `a` (R50). An address at or past 4096 holds no byte (R45): the write there is
dropped; no instruction and no operation reaches it, since each checks its highest address first (R129; log 7). -/
def Memory.writeBytes (m : Memory) (a : Nat) : List Byte → Memory
  | [] => m
  | b :: bs => Memory.writeBytes (if a < Config.memSize then m.write a b else m) (a + 1) bs

end Sys2Proof.Machine
end

