-- ==== Sys2Proof/Machine/Operands.lean ====
section
/-! DEFINITION. Operands: the register file, zero extension, the one addressing mode `I + k` (R129 of 43_index_memory.md), the call stack's entries, the keypad latches and the framebuffer's cells. -/

namespace Sys2Proof.Machine

/-- `zext_16` of a byte (R7). -/
def zextByte (b : Byte) : Word := b.setWidth 16

/-- `zext_16` of an address field (R7, R63). -/
def zextAddr (nnn : Addr) : Word := nnn.setWidth 16

/-- `V[r]` (R10). -/
def State.reg (s : State) (r : RegIdx) : Byte := s.v[r.toNat]'r.isLt

/-- `V[r] <- b` (R10). -/
def State.setReg (s : State) (r : RegIdx) (b : Byte) : State := { s with v := s.v.set r.toNat b r.isLt }

/-- `VF` (R11). -/
def State.vf (s : State) : Byte := s.reg Config.flagReg

/-- `VF <- b` (R11). -/
def State.setVf (s : State) (b : Byte) : State := s.setReg Config.flagReg b

/-- The effective address `EA = I + k`, a natural number that does not wrap (R129, D23). -/
def State.ea (s : State) (k : Nat) : Nat := s.i.toNat + k

/-- The one check of a memory instruction whose largest offset is `k`: `I + k <= 4095` (R129). -/
abbrev State.eaInMemory (s : State) (k : Nat) : Prop := s.ea k < Config.memSize

/-- `MEM[a]`. -/
def State.readByte (s : State) (a : Nat) : Byte := s.mem.read a

/-- `STACK[k]` (R15); there is no entry at or past 12, and no reachable state reads one (log 8). -/
def State.stackEntry (s : State) (k : Nat) : Word := if h : k < 12 then s.stack[k] else 0

/-- `KEY[k]` (R18). -/
def State.keyDown (s : State) (k : KeyIdx) : Bool := s.key[k.toNat]'k.isLt

/-- The key indices in ascending order. -/
def allKeys : List KeyIdx := (List.range 16).map (BitVec.ofNat 4)

/-- `min { k | KEY[k] }` when some key is pressed (R153). -/
def State.lowestKey (s : State) : Option KeyIdx := allKeys.find? s.keyDown

/-- The cell in row `r` and column `c` of a framebuffer (R19). -/
def cellOf (fb : Framebuffer) (r : Fin 32) (c : Fin 64) : Bool := fb[r][c]

/-- `FB[r][c]` (R19). -/
def State.cell (s : State) (r : Fin 32) (c : Fin 64) : Bool := cellOf s.fb r c

end Sys2Proof.Machine
end

