-- ==== Sys2Proof/Machine/Flags.lean ====
section
/-! DEFINITION. The flag computations: the values the six flag-writing instructions give `VF` (R11 of 10_state.md). -/

namespace Sys2Proof.Machine

/-- A flag as a byte: 1 or 0 (R11). -/
def flagByte (b : Bool) : Byte := if b then 1 else 0

/-- Carry of `vx + vy`: the sum exceeds 255 (R116). -/
def carryFlag (vx vy : Byte) : Byte := flagByte (decide (255 < vx.toNat + vy.toNat))

/-- Not-borrow of `a - b`: `a >= b` (R117, R119). -/
def notBorrowFlag (a b : Byte) : Byte := flagByte (decide (b.toNat ≤ a.toNat))

/-- The bit a right shift moves out, bit 0 (R118). -/
def shiftedOutRight (vy : Byte) : Byte := flagByte (vy.getLsbD 0)

/-- The bit a left shift moves out, bit 7 (R120). -/
def shiftedOutLeft (vy : Byte) : Byte := flagByte (vy.getLsbD 7)

/-- The two register writes of a flag-writing instruction, flag first, destination second (R109). -/
def State.writeFlagThen (s : State) (flag : Byte) (x : RegIdx) (result : Byte) : State := (s.setVf flag).setReg x result

end Sys2Proof.Machine
end

