-- ==== Sys2Proof/Machine/Ops.lean ====
section
/-! DEFINITION. The named operations the meanings share: fetching, writing `PC`, `I` and memory, the call stack, free values, and the entry of a fatal error (R167 of 60_exceptions.md). -/

namespace Sys2Proof.Machine

/-- The fetch bound: `PC <= 0xFFE`, both bytes of the instruction lie in memory (R81). -/
abbrev State.canFetch (s : State) : Prop := s.pc.toNat + 1 < Config.memSize

/-- `Fetch16(PC) = MEM[PC] || MEM[PC + 1]` (R47, R81). -/
def State.fetch16 (s : State) : Word := wordOfBytes (s.readByte s.pc.toNat) (s.readByte (s.pc.toNat + 1))

/-- `PC <- t`. -/
def State.setPc (s : State) (t : Word) : State := { s with pc := t }

/-- `PC <- PC + 2` (R82, and a skip that is taken). -/
def State.advancePc (s : State) : State := s.setPc (s.pc + 2)

/-- A skip: `PC <- PC + 2` when the condition holds (R14). -/
def State.skipIf (s : State) (cond : Bool) : State := if cond then s.advancePc else s

/-- `I <- w`. -/
def State.setI (s : State) (w : Word) : State := { s with i := w }

/-- `DT <- b`. -/
def State.setDt (s : State) (b : Byte) : State := { s with dt := b }

/-- `ST <- b`. -/
def State.setSt (s : State) (b : Byte) : State := { s with st := b }

/-- `STACK[SP] <- PC; SP <- SP + 1` (R102). -/
def State.pushPc (s : State) : State := { s with stack := s.stack.setIfInBounds s.sp s.pc, sp := s.sp + 1 }

/-- `SP <- SP - 1; PC <- STACK[SP]` (R100). -/
def State.popPc (s : State) : State := { s with sp := s.sp - 1, pc := s.stackEntry (s.sp - 1) }

/-- `MemWrite` of the bytes at `I`, `I + 1`, ... (R50, R129). -/
def State.storeAtI (s : State) (bytes : List Byte) : State := { s with mem := s.mem.writeBytes (s.ea 0) bytes }

/-- `V[0] <- MEM[I]`, ..., `V[k-1] <- MEM[I + k - 1]`, ascending (R135). -/
def State.loadFromI (s : State) : Nat → State
  | 0 => s
  | k + 1 => (s.loadFromI k).setReg (BitVec.ofNat 4 k) (s.readByte (s.ea k))

/-- `FB <- fb; DIRTY <- true` (R22). -/
def State.present (s : State) (fb : Framebuffer) : State := { s with fb := fb, dirty := true }

/-- Flip one cell and remember whether it was on (R141). -/
def togglePixel (acc : Framebuffer × Bool) (rc : Fin 32 × Fin 64) : Framebuffer × Bool :=
  (acc.1.set rc.1 (acc.1[rc.1].set rc.2 (!cellOf acc.1 rc.1 rc.2)), acc.2 || cellOf acc.1 rc.1 rc.2)

/-- The cells a sprite row toggles: for each set bit of `b`, bit 7 at offset 0 (R141 (a)), both coordinates wrapped (R141 (b)). -/
def rowPixels (vx vy : Byte) (row : Nat) (b : Byte) : List (Fin 32 × Fin 64) :=
  ((List.range 8).filter fun k => b.getLsbD (7 - k)).map fun k =>
    (Fin.ofNat 32 (vy.toNat + row), Fin.ofNat 64 (vx.toNat + k))

/-- The cells the sprite of `n` rows at `I` toggles, in the order of R141. -/
def State.spritePixels (s : State) (vx vy : Byte) (n : Nat) : List (Fin 32 × Fin 64) :=
  (List.range n).flatMap fun row => rowPixels vx vy row (s.readByte (s.ea row))

/-- A draw `rand8()` (R121): the next free byte, and the state with the draw counted (log 5). -/
def State.rand8 (s : State) : Byte × State := (Config.rand8 s.draws, { s with draws := s.draws + 1 })

/-- Every element but `HALTED` and `ERR` at a value the spec does not fix (R167, D8; log 2). -/
def State.unspecified (s : State) : State :=
  let r := Config.afterError s.draws
  { s with
    v := r.v, i := r.i, pc := r.pc, stack := r.stack, sp := r.sp.val, dt := r.dt, st := r.st, key := r.key, fb := r.fb,
    dirty := r.dirty, mem := Memory.ofBytes r.mem, draws := s.draws + 1 }

/-- What a fatal error leaves of the state beside `HALTED` and `ERR` (R167): everything after `PcOutOfBounds`, the stack after
`StackOverflow`, nothing the spec fixes after the others (log 2). -/
def State.afterFatal (s : State) : ErrorKind → State
  | .pcOutOfBounds => s
  | .stackOverflow => { s.unspecified with stack := s.stack, sp := s.sp }
  | .stackUnderflow => s.unspecified
  | .memoryAccessOutOfBounds => s.unspecified
  | .unknownOpcode => s.unspecified

/-- `raise kind`: `HALTED <- true`, `ERR <- (kind, addr, opcode)` (R167). There is no return from an error: only reset leaves
the halted state (R170). -/
def raise (kind : ErrorKind) (addr : Word) (opcode : Option Word) (s : State) : StepOutcome :=
  .next { s.afterFatal kind with halted := true, err := some ⟨kind, addr, opcode⟩ }

/-- The address the executing instruction was fetched from: `PC` was advanced past it (R82; log 9). -/
def State.fetchAddr (s : State) : Word := s.pc - 2

/-- `raise kind(a, op)` by an executing instruction (R24, R167): `a` its address, `op` its word (log 9). -/
def raiseBy (i : Instr) (kind : ErrorKind) (s : State) : StepOutcome := raise kind s.fetchAddr (some (encode i)) s

end Sys2Proof.Machine
end

