-- ==== Sys2Proof/Machine/Display.lean ====
section
/-! DEFINITION. Meanings of the display instructions (44_display.md). -/

namespace Sys2Proof.Machine

/-- R140 -/
def execClearDisplay (s : State) : StepOutcome := .next (s.present clearedFb)

/-- R141: the coordinates are read first, `VF` is written last. -/
def execDrawSprite (x y : RegIdx) (n : BitVec 4) (s : State) : StepOutcome :=
  let vx := s.reg x
  let vy := s.reg y
  if n = 0 ∨ s.eaInMemory (n.toNat - 1) then
    let drawn := (s.spritePixels vx vy n.toNat).foldl togglePixel (s.fb, false)
    .next ((s.present drawn.1).setVf (flagByte drawn.2))
  else raiseBy (.drawSprite x y n) .memoryAccessOutOfBounds s

end Sys2Proof.Machine
end

