-- ==== Sys2Proof/Machine/FlowControl.lean ====
section
/-! DEFINITION. Meanings of the control transfer instructions (41_flow_control.md). On entry `PC` is the fetch address plus 2 (R82). -/

namespace Sys2Proof.Machine

/-- R100 -/
def execRet (s : State) : StepOutcome :=
  if s.sp = 0 then raiseBy .ret .stackUnderflow s else .next s.popPc

/-- R101 -/
def execJump (nnn : Addr) (s : State) : StepOutcome := .next (s.setPc (zextAddr nnn))

/-- R102 -/
def execCall (nnn : Addr) (s : State) : StepOutcome :=
  if Config.stackCap ≤ s.sp then raiseBy (.call nnn) .stackOverflow s else .next (s.pushPc.setPc (zextAddr nnn))

/-- R103 -/
def execSkipEqImm (x : RegIdx) (kk : Byte) (s : State) : StepOutcome := .next (s.skipIf (s.reg x == kk))

/-- R104 -/
def execSkipNeImm (x : RegIdx) (kk : Byte) (s : State) : StepOutcome := .next (s.skipIf (s.reg x != kk))

/-- R105 -/
def execSkipEqReg (x y : RegIdx) (s : State) : StepOutcome := .next (s.skipIf (s.reg x == s.reg y))

/-- R106 -/
def execSkipNeReg (x y : RegIdx) (s : State) : StepOutcome := .next (s.skipIf (s.reg x != s.reg y))

/-- R107: the sum is at most 0x10FE, so it does not wrap. -/
def execJumpWithOffset (nnn : Addr) (s : State) : StepOutcome := .next (s.setPc (zextAddr nnn + zextByte (s.reg 0)))

end Sys2Proof.Machine
end

