-- ==== Sys2Proof/Machine/IndexMemory.lean ====
section
/-! DEFINITION. Meanings of the index register and memory instructions (43_index_memory.md). Each memory instruction checks its highest address before it reads or writes anything (R129), and none changes `I` by an access. -/

namespace Sys2Proof.Machine

/-- R130 -/
def execSetIndex (nnn : Addr) (s : State) : StepOutcome := .next (s.setI (zextAddr nnn))

/-- R131: modulo 65536, no flag. -/
def execAddToIndex (x : RegIdx) (s : State) : StepOutcome := .next (s.setI (s.i + zextByte (s.reg x)))

/-- R132: the whole register value times 5. -/
def execSetIndexToGlyph (x : RegIdx) (s : State) : StepOutcome := .next (s.setI (zextByte (s.reg x) * 5))

/-- The decimal digits of a byte, hundreds first (R133). -/
def bcdDigits (v : Byte) : List Byte :=
  [BitVec.ofNat 8 (v.toNat / 100), BitVec.ofNat 8 (v.toNat / 10 % 10), BitVec.ofNat 8 (v.toNat % 10)]

/-- R133 -/
def execStoreBcd (x : RegIdx) (s : State) : StepOutcome :=
  if s.eaInMemory 2 then .next (s.storeAtI (bcdDigits (s.reg x)))
  else raiseBy (.storeBcd x) .memoryAccessOutOfBounds s

/-- `V[0]`, ..., `V[x]` (R134). -/
def State.regsUpTo (s : State) (x : RegIdx) : List Byte := (List.range (x.toNat + 1)).map fun k => s.reg (BitVec.ofNat 4 k)

/-- R134 -/
def execStoreRegisters (x : RegIdx) (s : State) : StepOutcome :=
  if s.eaInMemory x.toNat then .next (s.storeAtI (s.regsUpTo x))
  else raiseBy (.storeRegisters x) .memoryAccessOutOfBounds s

/-- R135 -/
def execLoadRegisters (x : RegIdx) (s : State) : StepOutcome :=
  if s.eaInMemory x.toNat then .next (s.loadFromI (x.toNat + 1))
  else raiseBy (.loadRegisters x) .memoryAccessOutOfBounds s

end Sys2Proof.Machine
end

