-- ==== Sys2Proof/Machine/KeypadTimers.lean ====
section
/-! DEFINITION. Meanings of the keypad and timer instructions (45_keypad_timers.md). -/

namespace Sys2Proof.Machine

/-- The key a skip tests: the low bits of `V[x]`, used only when `V[x] <= 15` (R150). -/
def State.keyOfReg (s : State) (x : RegIdx) : KeyIdx := (s.reg x).setWidth 4

/-- R150: the key is `V[x]`; above 15 the outcome is `Unspecified`, a fault (R168; log 4). -/
def execSkipIfKeyPressed (x : RegIdx) (s : State) : StepOutcome :=
  if (s.reg x).toNat ≤ 15 then .next (s.skipIf (s.keyDown (s.keyOfReg x)))
  else .fault (.keyIndexOutOfRange s.fetchAddr)

/-- R151: as R150. -/
def execSkipIfKeyNotPressed (x : RegIdx) (s : State) : StepOutcome :=
  if (s.reg x).toNat ≤ 15 then .next (s.skipIf (!s.keyDown (s.keyOfReg x)))
  else .fault (.keyIndexOutOfRange s.fetchAddr)

/-- R152 -/
def execGetDelayTimer (x : RegIdx) (s : State) : StepOutcome := .next (s.setReg x s.dt)

/-- R153: the lowest pressed key, or `PC` rewound by 2. -/
def execWaitForKey (x : RegIdx) (s : State) : StepOutcome :=
  match s.lowestKey with
  | some k => .next (s.setReg x (k.setWidth 8))
  | none => .next (s.setPc (s.pc - 2))

/-- R154 -/
def execSetDelayTimer (x : RegIdx) (s : State) : StepOutcome := .next (s.setDt (s.reg x))

/-- R155 -/
def execSetSoundTimer (x : RegIdx) (s : State) : StepOutcome := .next (s.setSt (s.reg x))

end Sys2Proof.Machine
end

