-- ==== Sys2Proof/Machine/RegisterAlu.lean ====
section
/-! DEFINITION. Meanings of the register and arithmetic instructions (42_register_alu.md). The destination is `V[x]`, the second operand `V[y]`; both are read before anything is written, and the flag is written before the destination (R109). -/

namespace Sys2Proof.Machine

/-- R110 -/
def execSetImm (x : RegIdx) (kk : Byte) (s : State) : StepOutcome := .next (s.setReg x kk)

/-- R111: modulo 256, no flag. -/
def execAddImm (x : RegIdx) (kk : Byte) (s : State) : StepOutcome := .next (s.setReg x (s.reg x + kk))

/-- R112 -/
def execSetReg (x y : RegIdx) (s : State) : StepOutcome := .next (s.setReg x (s.reg y))

/-- R113 -/
def execOrReg (x y : RegIdx) (s : State) : StepOutcome := .next (s.setReg x (s.reg x ||| s.reg y))

/-- R114 -/
def execAndReg (x y : RegIdx) (s : State) : StepOutcome := .next (s.setReg x (s.reg x &&& s.reg y))

/-- R115 -/
def execXorReg (x y : RegIdx) (s : State) : StepOutcome := .next (s.setReg x (s.reg x ^^^ s.reg y))

/-- R116 -/
def execAddReg (x y : RegIdx) (s : State) : StepOutcome :=
  let vx := s.reg x
  let vy := s.reg y
  .next (s.writeFlagThen (carryFlag vx vy) x (vx + vy))

/-- R117 -/
def execSubReg (x y : RegIdx) (s : State) : StepOutcome :=
  let vx := s.reg x
  let vy := s.reg y
  .next (s.writeFlagThen (notBorrowFlag vx vy) x (vx - vy))

/-- R118: a logical shift of `V[y]`. -/
def execShiftRight (x y : RegIdx) (s : State) : StepOutcome :=
  let vy := s.reg y
  .next (s.writeFlagThen (shiftedOutRight vy) x (vy >>> 1))

/-- R119 -/
def execSubRegReverse (x y : RegIdx) (s : State) : StepOutcome :=
  let vx := s.reg x
  let vy := s.reg y
  .next (s.writeFlagThen (notBorrowFlag vy vx) x (vy - vx))

/-- R120 -/
def execShiftLeft (x y : RegIdx) (s : State) : StepOutcome :=
  let vy := s.reg y
  .next (s.writeFlagThen (shiftedOutLeft vy) x (vy <<< 1))

/-- R121: the byte is a draw. -/
def execRandomAnd (x : RegIdx) (kk : Byte) (s : State) : StepOutcome := .next (s.rand8.2.setReg x (s.rand8.1 &&& kk))

end Sys2Proof.Machine
end

