-- ==== Sys2Proof/Machine/Dispatch.lean ====
section
/-! DEFINITION. Dispatch (R83 of 40_step_cycle.md): one arm per instruction. `PC` already holds the address of the next instruction (R82). -/

namespace Sys2Proof.Machine

def exec (i : Instr) (s : State) : Host.Outcome State Fault Refusal :=
  match i with
  | .clearDisplay => Sys2Proof.Machine.execClearDisplay s
  | .ret => Sys2Proof.Machine.execRet s
  | .jump nnn => Sys2Proof.Machine.execJump nnn s
  | .call nnn => Sys2Proof.Machine.execCall nnn s
  | .skipEqImm x kk => Sys2Proof.Machine.execSkipEqImm x kk s
  | .skipNeImm x kk => Sys2Proof.Machine.execSkipNeImm x kk s
  | .skipEqReg x y => Sys2Proof.Machine.execSkipEqReg x y s
  | .setImm x kk => Sys2Proof.Machine.execSetImm x kk s
  | .addImm x kk => Sys2Proof.Machine.execAddImm x kk s
  | .setReg x y => Sys2Proof.Machine.execSetReg x y s
  | .orReg x y => Sys2Proof.Machine.execOrReg x y s
  | .andReg x y => Sys2Proof.Machine.execAndReg x y s
  | .xorReg x y => Sys2Proof.Machine.execXorReg x y s
  | .addReg x y => Sys2Proof.Machine.execAddReg x y s
  | .subReg x y => Sys2Proof.Machine.execSubReg x y s
  | .shiftRight x y => Sys2Proof.Machine.execShiftRight x y s
  | .subRegReverse x y => Sys2Proof.Machine.execSubRegReverse x y s
  | .shiftLeft x y => Sys2Proof.Machine.execShiftLeft x y s
  | .skipNeReg x y => Sys2Proof.Machine.execSkipNeReg x y s
  | .setIndex nnn => Sys2Proof.Machine.execSetIndex nnn s
  | .jumpWithOffset nnn => Sys2Proof.Machine.execJumpWithOffset nnn s
  | .randomAnd x kk => Sys2Proof.Machine.execRandomAnd x kk s
  | .drawSprite x y n => Sys2Proof.Machine.execDrawSprite x y n s
  | .skipIfKeyPressed x => Sys2Proof.Machine.execSkipIfKeyPressed x s
  | .skipIfKeyNotPressed x => Sys2Proof.Machine.execSkipIfKeyNotPressed x s
  | .getDelayTimer x => Sys2Proof.Machine.execGetDelayTimer x s
  | .waitForKey x => Sys2Proof.Machine.execWaitForKey x s
  | .setDelayTimer x => Sys2Proof.Machine.execSetDelayTimer x s
  | .setSoundTimer x => Sys2Proof.Machine.execSetSoundTimer x s
  | .addToIndex x => Sys2Proof.Machine.execAddToIndex x s
  | .setIndexToGlyph x => Sys2Proof.Machine.execSetIndexToGlyph x s
  | .storeBcd x => Sys2Proof.Machine.execStoreBcd x s
  | .storeRegisters x => Sys2Proof.Machine.execStoreRegisters x s
  | .loadRegisters x => Sys2Proof.Machine.execLoadRegisters x s

end Sys2Proof.Machine
end

