-- ==== Sys2Proof/Machine/Ports.lean ====
section
/-! DEFINITION. The host operations other than `step` (R186 of 60_exceptions.md), and the store of a word where the next fetch reads it. -/

namespace Sys2Proof.Machine

/-- `tick_timers()` for one timer: decrement, floored at 0 (R175). -/
def tickTimer (t : Byte) : Byte := if t = 0 then 0 else t - 1

/-- `tick_timers()` (R175). -/
def State.tickTimers (s : State) : State := { s with dt := tickTimer s.dt, st := tickTimer s.st }

/-- `set_key(k, p)` (R179). -/
def State.setKey (s : State) (k : KeyIdx) (p : Bool) : State := { s with key := s.key.set k.toNat p k.isLt }

/-- `clear_dirty()` (R181). -/
def State.clearDirty (s : State) : State := { s with dirty := false }

/-- `read_framebuffer()`: the 2048 cells in row-major order (R20, R180). -/
def State.framebufferCells (s : State) : List Bool := s.fb.toList.flatMap (·.toList)

/-- The memory a successful `load` leaves: program space zeroed, then the image copied from 0x200 (R192). -/
def Memory.load (m : Memory) (bytes : List Byte) : Memory :=
  (m.writeBytes Config.progBase (List.replicate Config.progCap 0)).writeBytes Config.progBase bytes

/-- A successful `load` (R192). -/
def State.loadImage (s : State) (bytes : List Byte) : State := { s with mem := s.mem.load bytes }

/-- `reset()` (R190): the reset state whatever the state before. The model's counter of free values goes on, so that draws after
a reset are new ones (log 5). -/
def State.resetFrom (s : State) : State := { State.reset with draws := s.draws }

/-- The state made ready to fetch: the halt latch clear, and `PC` at the entry point if it lies past the fetch bound (log 11). -/
def State.readyToFetch (s : State) : State :=
  { s with halted := false, err := none, pc := if s.canFetch then s.pc else Config.resetPc }

/-- The two bytes of `op` stored at `PC` and `PC + 1` of the state made ready to fetch. -/
def State.placeWord (s : State) (op : Word) : State :=
  { s.readyToFetch with mem := s.mem.writeBytes s.readyToFetch.pc.toNat (bytesOfWord op) }

end Sys2Proof.Machine
end

