-- ==== Sys2Proof/Machine/Step.lean ====
section
/-! DEFINITION. The operation `step` (R80 of 40_step_cycle.md), and placing an opcode-table word where it fetches. -/

namespace Sys2Proof.Machine

/-- `step()` (R80): the halt latch (R87), the fetch bound (R81), fetch, the `PC` advance (R82), decode (R65), dispatch (R83), in the
order of R84. -/
def step (s : State) : Host.Outcome State Fault Refusal :=
  if s.halted then .fault (.halted s.err)
  else if s.canFetch then
    match decodeWord s.fetch16 with
    | .ok i => exec i s.advancePc
    | .error _ => raise .unknownOpcode s.pc (some s.fetch16) s.advancePc
  else raise .pcOutOfBounds s.pc none s

/-- `s` with the opcode-table word `w` of `nbits` bits stored where `step` fetches (log 11). -/
def State.withFetchWord (s : State) (nbits w : Nat) : State := s.placeWord (tableWord nbits w)

end Sys2Proof.Machine
end

