-- ==== Sys2Proof/Machine/Interface.lean ====
section
/-! DEFINITION. The host interface as a whole (R185, R186 of 60_exceptions.md): the operations, their replies, and executions as lists of operations (log 10). -/

namespace Sys2Proof.Machine

/-- The operations of R186. -/
inductive Operation where
  | reset
  | load (bytes : List Byte)
  | step
  | tickTimers
  | setKey (k : KeyIdx) (pressed : Bool)
  /-- the whole array (R180) -/
  | readFramebuffer
  /-- one cell, row `r` and column `c` (R180) -/
  | readCell (r : Fin 32) (c : Fin 64)
  | readDirty
  | clearDirty
  deriving DecidableEq, Repr

/-- What an operation returns (the result column of R186). -/
inductive Reply where
  /-- nothing to report -/
  | done
  /-- success of `load` or `step` -/
  | success
  /-- `load` of an image that does not fit (R166) -/
  | imageTooLarge
  /-- a fatal error of `step`, as recorded in `ERR` -/
  | fatal (err : Option ErrorRecord)
  /-- the 2048 cells, row-major -/
  | framebuffer (cells : List Bool)
  /-- the one cell read -/
  | cell (on : Bool)
  /-- the dirty flag -/
  | dirty (d : Bool)
  deriving DecidableEq, Repr

/-- `step()` as the host sees it: success, a fatal error just recorded, or, on a halted CORE, the recorded error again and no
change (R80, R87); `Unspecified` has no successor (R168). -/
def performStep (s : State) : Host.Outcome (Reply × State) Fault Refusal :=
  match step s with
  | .next t => .next (if t.halted then .fatal t.err else .success, t)
  | .fault (.halted e) => .next (.fatal e, s)
  | .fault (.keyIndexOutOfRange a) => .fault (.keyIndexOutOfRange a)
  | .refused r => .refused r

/-- `load(bytes)` (R192, R193). -/
def performLoad (bytes : List Byte) (s : State) : Reply × State :=
  if imageFits bytes then (.success, s.loadImage bytes) else (.imageTooLarge, s)

/-- One host operation (R186). -/
def perform : Operation → State → Host.Outcome (Reply × State) Fault Refusal
  | .reset, s => .next (.done, s.resetFrom)
  | .load bytes, s => .next (performLoad bytes s)
  | .step, s => performStep s
  | .tickTimers, s => .next (.done, s.tickTimers)
  | .setKey k p, s => .next (.done, s.setKey k p)
  | .readFramebuffer, s => .next (.framebuffer s.framebufferCells, s)
  | .readCell r c, s => .next (.cell (s.cell r c), s)
  | .readDirty, s => .next (.dirty s.dirty, s)
  | .clearDirty, s => .next (.done, s.clearDirty)

/-- An execution: operations one after another in a total order (R185), any list of them (D18). -/
def performAll : List Operation → State → Host.Outcome State Fault Refusal
  | [], s => .next s
  | o :: os, s =>
    match perform o s with
    | .next (_, t) => performAll os t
    | .fault r => .fault r
    | .refused r => .refused r

end Sys2Proof.Machine
end

