-- ==== Sys2Proof/Safety.lean ====
section
/-! DEFINITION. What claims are stated in: the invariant of the machine, completion without error, the end of a run, and what two states share. -/

namespace Sys2Proof.Machine

/-- The invariant: memory in canonical form, the depth within the stack (R15), the error record present exactly while halted
(R24), and, until a fatal error, `PC` at most 0x10FE and every live stack entry at most 0x1000 (R14). -/
structure State.Inv (s : State) : Prop where
  memory : s.mem.wf
  depth : s.sp ≤ Config.stackCap
  record : s.err.isSome = s.halted
  target : s.halted = false → s.pc.toNat ≤ 0x10FE
  returns : s.halted = false → ∀ k < s.sp, (s.stackEntry k).toNat ≤ 0x1000

/-- The instruction or step completed: a next state that is not halted. -/
def completes (o : StepOutcome) (t : State) : Prop := o = .next t ∧ t.halted = false

/-- The outcome is the entry of a fatal error with this record (R167). -/
def failsWith (o : StepOutcome) (kind : ErrorKind) (addr : Word) (opcode : Option Word) : Prop :=
  ∃ t, o = .next t ∧ t.halted = true ∧ t.err = some ⟨kind, addr, opcode⟩

/-- The suggested `END_OF_RUN` (D22, R214; log 13): not halted, and the instruction at `PC` is a jump to its own address. -/
def State.selfJump (s : State) : Prop :=
  s.halted = false ∧ s.canFetch ∧ ∃ nnn, decodeWord s.fetch16 = .ok (.jump nnn) ∧ zextAddr nnn = s.pc

/-- The general registers other than those in `out` are the same. -/
def sameRegsBut (out : RegIdx → Prop) (s t : State) : Prop := ∀ r, ¬ out r → t.reg r = s.reg r

/-- All general registers are the same. -/
def sameRegs (s t : State) : Prop := ∀ r, t.reg r = s.reg r

/-- Every byte of memory reads the same. -/
def sameMem (s t : State) : Prop := ∀ a, t.readByte a = s.readByte a

/-- The stack and its depth are the same. -/
def sameStack (s t : State) : Prop := t.sp = s.sp ∧ t.stack = s.stack

/-- Both timers are the same. -/
def sameTimers (s t : State) : Prop := t.dt = s.dt ∧ t.st = s.st

/-- Every framebuffer cell and the dirty flag are the same. -/
def sameDisplay (s t : State) : Prop := (∀ r c, t.cell r c = s.cell r c) ∧ t.dirty = s.dirty

/-- The halt latch, the error record and the count of free values are the same. -/
def sameControl (s t : State) : Prop := t.halted = s.halted ∧ t.err = s.err ∧ t.draws = s.draws

/-- Everything but the general registers and `PC` is the same. -/
def onlyRegsAndPc (s t : State) : Prop :=
  t.i = s.i ∧ sameMem s t ∧ sameStack s t ∧ sameTimers s t ∧ t.key = s.key ∧ sameDisplay s t ∧ sameControl s t

/-- Everything but `PC` is the same. -/
def onlyPc (s t : State) : Prop := sameRegs s t ∧ onlyRegsAndPc s t

/-- Everything but `PC` and the call stack is the same. -/
def onlyStackAndPc (s t : State) : Prop :=
  sameRegs s t ∧ t.i = s.i ∧ sameMem s t ∧ sameTimers s t ∧ t.key = s.key ∧ sameDisplay s t ∧ sameControl s t

/-- Everything but `I` and `PC` is the same. -/
def onlyIndexAndPc (s t : State) : Prop :=
  sameRegs s t ∧ sameMem s t ∧ sameStack s t ∧ sameTimers s t ∧ t.key = s.key ∧ sameDisplay s t ∧ sameControl s t

/-- Everything but memory and `PC` is the same. -/
def onlyMemAndPc (s t : State) : Prop :=
  sameRegs s t ∧ t.i = s.i ∧ sameStack s t ∧ sameTimers s t ∧ t.key = s.key ∧ sameDisplay s t ∧ sameControl s t

/-- Everything but the timers and `PC` is the same. -/
def onlyTimersAndPc (s t : State) : Prop :=
  sameRegs s t ∧ t.i = s.i ∧ sameMem s t ∧ sameStack s t ∧ t.key = s.key ∧ sameDisplay s t ∧ sameControl s t

/-- Everything but the framebuffer, the dirty flag, `VF` and `PC` is the same. -/
def onlyDisplayVfAndPc (s t : State) : Prop :=
  sameRegsBut (· = Config.flagReg) s t ∧ t.i = s.i ∧ sameMem s t ∧ sameStack s t ∧ sameTimers s t ∧ t.key = s.key ∧
    sameControl s t

/-- The cell `(r, c)` is under a set bit of the sprite of `n` rows at `I` drawn at column `vx` and row `vy`: bit 7 of a row is
offset 0, and both coordinates wrap (R141). -/
def State.spriteCovers (s : State) (vx vy : Byte) (n : BitVec 4) (r : Fin 32) (c : Fin 64) : Prop :=
  ∃ row < n.toNat, ∃ k < 8, (s.readByte (s.i.toNat + row)).getLsbD (7 - k) = true ∧
    r.val = (vy.toNat + row) % 32 ∧ c.val = (vx.toNat + k) % 64

/-- Two states that differ at most in `ST` and `DIRTY`, which no instruction reads (R17, R22). -/
def agreeButStAndDirty (s t : State) : Prop := { s with st := 0, dirty := false } = { t with st := 0, dirty := false }

end Sys2Proof.Machine

namespace Sys2Proof

/-- The general registers an instruction may write when it completes: those its rule names as destination, and `VF` for the six
flag-writing instructions (R11, R203). -/
def Instr.mayWrite : Instr → RegIdx → Prop
  | .clearDisplay, _ => False
  | .ret, _ => False
  | .jump _, _ => False
  | .call _, _ => False
  | .skipEqImm _ _, _ => False
  | .skipNeImm _ _, _ => False
  | .skipEqReg _ _, _ => False
  | .setImm x _, r => r = x
  | .addImm x _, r => r = x
  | .setReg x _, r => r = x
  | .orReg x _, r => r = x
  | .andReg x _, r => r = x
  | .xorReg x _, r => r = x
  | .addReg x _, r => r = x ∨ r = Config.flagReg
  | .subReg x _, r => r = x ∨ r = Config.flagReg
  | .shiftRight x _, r => r = x ∨ r = Config.flagReg
  | .subRegReverse x _, r => r = x ∨ r = Config.flagReg
  | .shiftLeft x _, r => r = x ∨ r = Config.flagReg
  | .skipNeReg _ _, _ => False
  | .setIndex _, _ => False
  | .jumpWithOffset _, _ => False
  | .randomAnd x _, r => r = x
  | .drawSprite _ _ _, r => r = Config.flagReg
  | .skipIfKeyPressed _, _ => False
  | .skipIfKeyNotPressed _, _ => False
  | .getDelayTimer x, r => r = x
  | .waitForKey x, r => r = x
  | .setDelayTimer _, _ => False
  | .setSoundTimer _, _ => False
  | .addToIndex _, _ => False
  | .setIndexToGlyph _, _ => False
  | .storeBcd _, _ => False
  | .storeRegisters _, _ => False
  | .loadRegisters x, r => r.toNat ≤ x.toNat

end Sys2Proof
end

