-- ==== Sys2Proof/Certificates/Slice0/Obligations.lean ====
section
/-! DEFINITION. The statements for the provers, from the rules of spec/. An instruction is executed with `PC` already advanced (R82), so a fetch address `a` is `s.pc - 2` there and `t.pc = s.pc` says `PC = a + 2` (log 9), and a fatal error is a next state with `HALTED` set (log 1). Opcode numbers other than `00E0`, `1nnn` and `9xy0` are the spec's own choice D1 (log 12), and so are the points the docstrings name by a D<n>. -/

open Sys2Proof Sys2Proof.Machine

/-! ### Encoding -/

/-- Decode and encode are inverse: decoding gives back every encoded instruction with every operand, from bytes with anything after
them, and a word that decodes encodes back to itself, so every word has one meaning (R60, R64, R65; D1, D3). -/
def Obligations.DecodeAndEncodeAreInverse : Prop :=
  (∀ (i : Instr) (rest : List Byte),
    decodeBytes (encodeBytes i ++ rest) = .ok (i, rest) ∧ decodeTableWord 16 (encode i).toNat = some i) ∧
  (∀ (op : Word) (i : Instr), decodeWord op = .ok i → encode i = op)

/-- A word decodes to the instruction of the one row of R64 that selects it, and to the error `UnknownOpcode` when no row does
(R62, R65, R66; D1, D2, D3). -/
def Obligations.DecoderFollowsTheOpcodeMap : Prop :=
  (∀ op, ∀ r₁ ∈ opcodeRows, ∀ r₂ ∈ opcodeRows, r₁.selects op = true → r₂.selects op = true → r₁ = r₂) ∧
  (∀ op, ∀ r ∈ opcodeRows, r.selects op = true → ∃ i, decodeWord op = .ok i ∧ i.mnemonic = r.mnemonic) ∧
  (∀ op, (∀ r ∈ opcodeRows, r.selects op = false) → decodeWord op = .error (.unknownOpcode op))

/-- Words written out bit by bit decode to the instructions they stand for: the three numbers the source prints, and one word of
each further family (the opcode numbers of these are D1). -/
def Obligations.WrittenOutWordsDecode : Prop :=
  decodeWord 0b0000000011100000 = .ok .clearDisplay ∧
  decodeWord 0b0001001000000000 = .ok (.jump 0x200) ∧
  decodeWord 0b1001000100100000 = .ok (.skipNeReg 1 2) ∧
  decodeWord 0b1000111100011110 = .ok (.shiftLeft 0xF 1) ∧
  decodeWord 0b1101011110100101 = .ok (.drawSprite 7 0xA 5) ∧
  decodeWord 0b1110010110011110 = .ok (.skipIfKeyPressed 5) ∧
  decodeWord 0b1111001001010101 = .ok (.storeRegisters 2)

/-! ### The step -/

/-- When the bytes at `PC` decode to `i`, a step of a CORE that is not halted is `i` executed with `PC` advanced by 2 (R80 to R83). -/
def Obligations.StepRunsTheDecodedInstruction : Prop :=
  ∀ (s : State) (i : Instr) (rest : List Byte), s.halted = false → s.pc.toNat ≤ 0xFFE →
    decodeBytes (s.readByte s.pc.toNat :: s.readByte (s.pc.toNat + 1) :: rest) = .ok (i, rest) →
    step s = exec i { s with pc := s.pc + 2 }

/-- `PC >= 4095` at the start of a step is `PcOutOfBounds`, and nothing but `HALTED` and `ERR` changes (R161, R167; log 1). The case
4095 is the spec's D4, the record D9. -/
def Obligations.FetchPastMemoryIsPcOutOfBounds : Prop :=
  ∀ s : State, s.halted = false → 4095 ≤ s.pc.toNat →
    step s = .next { s with halted := true, err := some ⟨.pcOutOfBounds, s.pc, none⟩ }

/-- A fetched word that no row of the opcode map selects is `UnknownOpcode`, recorded with its address and the word (R165; log 1;
which words those are rests on D1, D2, D3). -/
def Obligations.IllegalWordIsUnknownOpcode : Prop :=
  ∀ s : State, s.halted = false → s.pc.toNat ≤ 0xFFE → (∀ r ∈ opcodeRows, r.selects s.fetch16 = false) →
    failsWith (step s) .unknownOpcode s.pc (some (s.readByte s.pc.toNat ++ s.readByte (s.pc.toNat + 1)))

/-- A step on a halted CORE returns the recorded `ERR` and changes no state (R87, the spec's D7); in `step` this is the fault
`halted`, the model's form of having no successor but reset (log 3). -/
def Obligations.HaltedStepReturnsTheRecordedError : Prop :=
  ∀ s : State, s.halted = true → step s = .fault (.halted s.err) ∧ perform .step s = .next (.fatal s.err, s)

/-- On a CORE that is not halted a step has a next state, but for `Unspecified`, which arises exactly at a key skip whose register
exceeds 15 (R168, the spec's D10). -/
def Obligations.StepStopsOnlyAtAKeyIndexAboveFifteen : Prop :=
  ∀ s : State, s.halted = false →
    ((∃ t, step s = .next t) ∨
      ∃ x, 15 < (s.reg x).toNat ∧ (s.fetch16 = 0xE#4 ++ x ++ 0x9E#8 ∨ s.fetch16 = 0xE#4 ++ x ++ 0xA1#8) ∧
        step s = .fault (.keyIndexOutOfRange s.pc)) ∧
    (∀ x, s.pc.toNat ≤ 0xFFE → 15 < (s.reg x).toNat →
      (s.fetch16 = 0xE#4 ++ x ++ 0x9E#8 ∨ s.fetch16 = 0xE#4 ++ x ++ 0xA1#8) →
      step s = .fault (.keyIndexOutOfRange s.pc))

/-! ### Control transfer (41_flow_control.md) -/

/-- return `00EE` (R100, R162): pops into `PC`; `StackUnderflow` on an empty stack (log 1, log 9; the number is D1). -/
def Obligations.ReturnPopsThePc : Prop :=
  decodeWord 0x00EE = .ok .ret ∧
  (∀ s : State, 0 < s.sp → s.sp ≤ 12 →
    ∃ t, exec .ret s = .next t ∧ t.sp = s.sp - 1 ∧ s.stack[s.sp - 1]? = some t.pc ∧ t.stack = s.stack ∧ onlyStackAndPc s t) ∧
  (∀ s : State, s.sp = 0 → failsWith (exec .ret s) .stackUnderflow (s.pc - 2) (some 0x00EE))

/-- jump `1nnn` (R101): `PC` becomes `nnn`, nothing else changes. -/
def Obligations.JumpSetsThePc : Prop :=
  ∀ nnn : Addr, decodeWord (0x1#4 ++ nnn) = .ok (.jump nnn) ∧
    ∀ s : State, ∃ t, exec (.jump nnn) s = .next t ∧ t.pc.toNat = nnn.toNat ∧ onlyPc s t

/-- call `2nnn` (R102) with room on the stack: the entry at the old depth becomes `PC`, already `a + 2`, the other entries stay. -/
def Obligations.CallPushesTheNextAddress : Prop :=
  ∀ nnn : Addr, decodeWord (0x2#4 ++ nnn) = .ok (.call nnn) ∧
    ∀ s : State, s.sp < 12 →
      ∃ t, exec (.call nnn) s = .next t ∧ t.sp = s.sp + 1 ∧ t.pc.toNat = nnn.toNat ∧ t.stack[s.sp]? = some s.pc ∧
        (∀ k, k ≠ s.sp → t.stack[k]? = s.stack[k]?) ∧ onlyStackAndPc s t

/-- The 13th nested call is `StackOverflow`: depth and all 12 entries are unchanged (R163). The error as a next state with `HALTED`
set is the model's reading (log 1; the latch is the spec's D7), and so are the recorded address `PC - 2` and word (log 9; D9); the
number `2nnn` is D1 (log 12). -/
def Obligations.ThirteenthCallOverflows : Prop :=
  ∀ (nnn : Addr) (s : State), s.sp = 12 →
    ∃ t, exec (.call nnn) s = .next t ∧ t.halted = true ∧
      t.err = some ⟨.stackOverflow, s.pc - 2, some (0x2#4 ++ nnn)⟩ ∧ t.sp = 12 ∧ t.stack = s.stack

/-- skip-eq-imm `3xkk` and skip-ne-imm `4xkk` (R103, R104). -/
def Obligations.ImmediateSkipsCompareWithKK : Prop :=
  ∀ (x : RegIdx) (kk : Byte),
    decodeWord (0x3#4 ++ x ++ kk) = .ok (.skipEqImm x kk) ∧ decodeWord (0x4#4 ++ x ++ kk) = .ok (.skipNeImm x kk) ∧
    ∀ s : State,
      (∃ t, exec (.skipEqImm x kk) s = .next t ∧ t.pc = (if s.reg x = kk then s.pc + 2 else s.pc) ∧ onlyPc s t) ∧
      (∃ t, exec (.skipNeImm x kk) s = .next t ∧ t.pc = (if s.reg x = kk then s.pc else s.pc + 2) ∧ onlyPc s t)

/-- skip-eq-reg `5xy0` and skip-ne-reg `9xy0` (R105, R106); with `x = y` the first always skips, the second never. -/
def Obligations.RegisterSkipsCompareTwoRegisters : Prop :=
  ∀ (x y : RegIdx),
    decodeWord (0x5#4 ++ x ++ y ++ 0x0#4) = .ok (.skipEqReg x y) ∧
    decodeWord (0x9#4 ++ x ++ y ++ 0x0#4) = .ok (.skipNeReg x y) ∧
    ∀ s : State,
      (∃ t, exec (.skipEqReg x y) s = .next t ∧ t.pc = (if s.reg x = s.reg y then s.pc + 2 else s.pc) ∧ onlyPc s t) ∧
      (∃ t, exec (.skipNeReg x y) s = .next t ∧ t.pc = (if s.reg x = s.reg y then s.pc else s.pc + 2) ∧ onlyPc s t)

/-- jump-with-offset `Bnnn` (R107): `PC` becomes `nnn + V[0]`, not reduced modulo 4096. -/
def Obligations.JumpWithOffsetAddsV0 : Prop :=
  ∀ nnn : Addr, decodeWord (0xB#4 ++ nnn) = .ok (.jumpWithOffset nnn) ∧
    ∀ s : State, ∃ t, exec (.jumpWithOffset nnn) s = .next t ∧ t.pc.toNat = nnn.toNat + (s.reg 0).toNat ∧ onlyPc s t

/-! ### Register and arithmetic (42_register_alu.md)

The destination `V[x]` is the spec's D5; the result written after the flag, so that it stays in `VF` when `x = 0xF`, is D6. -/

/-- set-imm `6xkk` (R110). -/
def Obligations.SetImmWritesKK : Prop :=
  ∀ (x : RegIdx) (kk : Byte), decodeWord (0x6#4 ++ x ++ kk) = .ok (.setImm x kk) ∧
    ∀ s : State, ∃ t, exec (.setImm x kk) s = .next t ∧ (∀ r, t.reg r = if r = x then kk else s.reg r) ∧
      t.pc = s.pc ∧ onlyRegsAndPc s t

/-- add-imm `7xkk` (R111): modulo 256, no flag. -/
def Obligations.AddImmWrapsWithoutFlag : Prop :=
  ∀ (x : RegIdx) (kk : Byte), decodeWord (0x7#4 ++ x ++ kk) = .ok (.addImm x kk) ∧
    ∀ s : State, ∃ t, exec (.addImm x kk) s = .next t ∧
      (∀ r, (t.reg r).toNat = if r = x then ((s.reg x).toNat + kk.toNat) % 256 else (s.reg r).toNat) ∧
      t.pc = s.pc ∧ onlyRegsAndPc s t

/-- set-reg `8xy0` (R112). -/
def Obligations.SetRegCopies : Prop :=
  ∀ (x y : RegIdx), decodeWord (0x8#4 ++ x ++ y ++ 0x0#4) = .ok (.setReg x y) ∧
    ∀ s : State, ∃ t, exec (.setReg x y) s = .next t ∧ (∀ r, t.reg r = if r = x then s.reg y else s.reg r) ∧
      t.pc = s.pc ∧ onlyRegsAndPc s t

/-- or-reg `8xy1`, and-reg `8xy2`, xor-reg `8xy3` (R113 to R115), bit by bit; `VF` is not reset. -/
def Obligations.LogicOpsCombineBitwise : Prop :=
  ∀ (x y : RegIdx),
    decodeWord (0x8#4 ++ x ++ y ++ 0x1#4) = .ok (.orReg x y) ∧
    decodeWord (0x8#4 ++ x ++ y ++ 0x2#4) = .ok (.andReg x y) ∧
    decodeWord (0x8#4 ++ x ++ y ++ 0x3#4) = .ok (.xorReg x y) ∧
    ∀ s : State,
      (∃ t, exec (.orReg x y) s = .next t ∧
        (∀ b, (t.reg x).getLsbD b = ((s.reg x).getLsbD b || (s.reg y).getLsbD b)) ∧
        sameRegsBut (· = x) s t ∧ t.pc = s.pc ∧ onlyRegsAndPc s t) ∧
      (∃ t, exec (.andReg x y) s = .next t ∧
        (∀ b, (t.reg x).getLsbD b = ((s.reg x).getLsbD b && (s.reg y).getLsbD b)) ∧
        sameRegsBut (· = x) s t ∧ t.pc = s.pc ∧ onlyRegsAndPc s t) ∧
      (∃ t, exec (.xorReg x y) s = .next t ∧
        (∀ b, (t.reg x).getLsbD b = ((s.reg x).getLsbD b ^^ (s.reg y).getLsbD b)) ∧
        sameRegsBut (· = x) s t ∧ t.pc = s.pc ∧ onlyRegsAndPc s t)

/-- add-reg `8xy4` (R116): sum modulo 256, `VF` the carry. -/
def Obligations.AddRegSetsCarry : Prop :=
  ∀ (x y : RegIdx), decodeWord (0x8#4 ++ x ++ y ++ 0x4#4) = .ok (.addReg x y) ∧
    ∀ s : State, ∃ t, exec (.addReg x y) s = .next t ∧
      (t.reg x).toNat = ((s.reg x).toNat + (s.reg y).toNat) % 256 ∧
      (x ≠ 0xF → t.reg 0xF = if 255 < (s.reg x).toNat + (s.reg y).toNat then 1 else 0) ∧
      sameRegsBut (fun r => r = x ∨ r = 0xF) s t ∧ t.pc = s.pc ∧ onlyRegsAndPc s t

/-- sub-reg `8xy5` (R117): `V[x] - V[y]` modulo 256, `VF` the not-borrow. -/
def Obligations.SubRegSetsNotBorrow : Prop :=
  ∀ (x y : RegIdx), decodeWord (0x8#4 ++ x ++ y ++ 0x5#4) = .ok (.subReg x y) ∧
    ∀ s : State, ∃ t, exec (.subReg x y) s = .next t ∧
      ((t.reg x).toNat : Int) = ((s.reg x).toNat - (s.reg y).toNat : Int) % 256 ∧
      (x ≠ 0xF → t.reg 0xF = if (s.reg y).toNat ≤ (s.reg x).toNat then 1 else 0) ∧
      sameRegsBut (fun r => r = x ∨ r = 0xF) s t ∧ t.pc = s.pc ∧ onlyRegsAndPc s t

/-- shift-right `8xy6` (R118): `V[x] <- V[y] >> 1`, `VF` the old bit 0 of `V[y]`. -/
def Obligations.ShiftRightShiftsTheYRegister : Prop :=
  ∀ (x y : RegIdx), decodeWord (0x8#4 ++ x ++ y ++ 0x6#4) = .ok (.shiftRight x y) ∧
    ∀ s : State, ∃ t, exec (.shiftRight x y) s = .next t ∧
      (t.reg x).toNat = (s.reg y).toNat / 2 ∧
      (x ≠ 0xF → (t.reg 0xF).toNat = (s.reg y).toNat % 2) ∧
      sameRegsBut (fun r => r = x ∨ r = 0xF) s t ∧ t.pc = s.pc ∧ onlyRegsAndPc s t

/-- sub-reg-reverse `8xy7` (R119): `V[y] - V[x]` modulo 256, `VF` the not-borrow. -/
def Obligations.SubRegReverseSetsNotBorrow : Prop :=
  ∀ (x y : RegIdx), decodeWord (0x8#4 ++ x ++ y ++ 0x7#4) = .ok (.subRegReverse x y) ∧
    ∀ s : State, ∃ t, exec (.subRegReverse x y) s = .next t ∧
      ((t.reg x).toNat : Int) = ((s.reg y).toNat - (s.reg x).toNat : Int) % 256 ∧
      (x ≠ 0xF → t.reg 0xF = if (s.reg x).toNat ≤ (s.reg y).toNat then 1 else 0) ∧
      sameRegsBut (fun r => r = x ∨ r = 0xF) s t ∧ t.pc = s.pc ∧ onlyRegsAndPc s t

/-- shift-left `8xyE` (R120): `V[x] <- 2 * V[y]` modulo 256, `VF` the old bit 7 of `V[y]`. -/
def Obligations.ShiftLeftShiftsTheYRegister : Prop :=
  ∀ (x y : RegIdx), decodeWord (0x8#4 ++ x ++ y ++ 0xE#4) = .ok (.shiftLeft x y) ∧
    ∀ s : State, ∃ t, exec (.shiftLeft x y) s = .next t ∧
      (t.reg x).toNat = (s.reg y).toNat * 2 % 256 ∧
      (x ≠ 0xF → (t.reg 0xF).toNat = (s.reg y).toNat / 128) ∧
      sameRegsBut (fun r => r = x ∨ r = 0xF) s t ∧ t.pc = s.pc ∧ onlyRegsAndPc s t

/-- random-and `Cxkk` (R121, the spec's D17): the drawn byte AND `kk`. The draw is the model's free value `Config.rand8` at the
state's count of draws, of which nothing is known (log 5), and the count advances. -/
def Obligations.RandomAndMasksADraw : Prop :=
  ∀ (x : RegIdx) (kk : Byte), decodeWord (0xC#4 ++ x ++ kk) = .ok (.randomAnd x kk) ∧
    ∀ s : State, ∃ t, exec (.randomAnd x kk) s = .next t ∧
      (∀ r, t.reg r = if r = x then Config.rand8 s.draws &&& kk else s.reg r) ∧ (t.reg x) &&& (~~~ kk) = 0 ∧
      t.draws = s.draws + 1 ∧ t.pc = s.pc ∧ onlyRegsAndPc s { t with draws := s.draws }

/-! ### Index register and memory (43_index_memory.md) -/

/-- set-index `Annn` (R130), add-to-index `Fx1E` (R131; modulo 65536 is the spec's D12; no flag), set-index-to-glyph `Fx29` (R132;
five times the whole register value, above 15 the spec's D11). -/
def Obligations.IndexWritersSetI : Prop :=
  ∀ (nnn : Addr) (x : RegIdx),
    decodeWord (0xA#4 ++ nnn) = .ok (.setIndex nnn) ∧
    decodeWord (0xF#4 ++ x ++ 0x1E#8) = .ok (.addToIndex x) ∧
    decodeWord (0xF#4 ++ x ++ 0x29#8) = .ok (.setIndexToGlyph x) ∧
    ∀ s : State,
      (∃ t, exec (.setIndex nnn) s = .next t ∧ t.i.toNat = nnn.toNat ∧ t.pc = s.pc ∧ onlyIndexAndPc s t) ∧
      (∃ t, exec (.addToIndex x) s = .next t ∧ t.i.toNat = (s.i.toNat + (s.reg x).toNat) % 65536 ∧
        t.pc = s.pc ∧ onlyIndexAndPc s t) ∧
      (∃ t, exec (.setIndexToGlyph x) s = .next t ∧ t.i.toNat = (s.reg x).toNat * 5 ∧
        t.pc = s.pc ∧ onlyIndexAndPc s t)

/-- store-bcd `Fx33` (R133, R164): three decimal digits at `I`, `I + 1`, `I + 2` and no other byte; out of bounds exactly when
`I + 2 >= 4096`, a sum that does not wrap (the spec's D23); the error's form is log 1 and log 9. -/
def Obligations.StoreBcdWritesThreeDigits : Prop :=
  ∀ x : RegIdx, decodeWord (0xF#4 ++ x ++ 0x33#8) = .ok (.storeBcd x) ∧
    (∀ s : State, s.i.toNat + 2 < 4096 →
      ∃ t, exec (.storeBcd x) s = .next t ∧
        (t.readByte s.i.toNat).toNat = (s.reg x).toNat / 100 ∧
        (t.readByte (s.i.toNat + 1)).toNat = (s.reg x).toNat / 10 % 10 ∧
        (t.readByte (s.i.toNat + 2)).toNat = (s.reg x).toNat % 10 ∧
        (∀ a, (a < s.i.toNat ∨ s.i.toNat + 2 < a) → t.readByte a = s.readByte a) ∧
        t.pc = s.pc ∧ onlyMemAndPc s t) ∧
    (∀ s : State, 4096 ≤ s.i.toNat + 2 →
      failsWith (exec (.storeBcd x) s) .memoryAccessOutOfBounds (s.pc - 2) (some (0xF#4 ++ x ++ 0x33#8)))

/-- store-registers `Fx55` (R134, R164): `V[k]` at `I + k` for `k <= x` and no other byte; out of bounds exactly when
`I + x >= 4096`, a sum that does not wrap (the spec's D23); the error's form is log 1 and log 9. That `I` is
unchanged is the spec's D13. -/
def Obligations.StoreRegistersWritesV0ToVx : Prop :=
  ∀ x : RegIdx, decodeWord (0xF#4 ++ x ++ 0x55#8) = .ok (.storeRegisters x) ∧
    (∀ s : State, s.i.toNat + x.toNat < 4096 →
      ∃ t, exec (.storeRegisters x) s = .next t ∧
        (∀ k : RegIdx, k.toNat ≤ x.toNat → t.readByte (s.i.toNat + k.toNat) = s.reg k) ∧
        (∀ a, (a < s.i.toNat ∨ s.i.toNat + x.toNat < a) → t.readByte a = s.readByte a) ∧
        t.pc = s.pc ∧ onlyMemAndPc s t) ∧
    (∀ s : State, 4096 ≤ s.i.toNat + x.toNat →
      failsWith (exec (.storeRegisters x) s) .memoryAccessOutOfBounds (s.pc - 2) (some (0xF#4 ++ x ++ 0x55#8)))

/-- load-registers `Fx65` (R135, R164): `V[k]` from `I + k` for `k <= x`, the other registers unchanged; out of bounds exactly
when `I + x >= 4096`, a sum that does not wrap (the spec's D23); the error's form is log 1 and log 9. That `I` is
unchanged is the spec's D13. -/
def Obligations.LoadRegistersReadsV0ToVx : Prop :=
  ∀ x : RegIdx, decodeWord (0xF#4 ++ x ++ 0x65#8) = .ok (.loadRegisters x) ∧
    (∀ s : State, s.i.toNat + x.toNat < 4096 →
      ∃ t, exec (.loadRegisters x) s = .next t ∧
        (∀ k : RegIdx, t.reg k = if k.toNat ≤ x.toNat then s.readByte (s.i.toNat + k.toNat) else s.reg k) ∧
        t.pc = s.pc ∧ onlyRegsAndPc s t) ∧
    (∀ s : State, 4096 ≤ s.i.toNat + x.toNat →
      failsWith (exec (.loadRegisters x) s) .memoryAccessOutOfBounds (s.pc - 2) (some (0xF#4 ++ x ++ 0x65#8)))

/-! ### Display (44_display.md) -/

/-- clear-display `00E0` (R140): every cell off, `DIRTY` set, also when the framebuffer was clear; nothing else changes. -/
def Obligations.ClearDisplayTurnsEveryCellOff : Prop :=
  decodeWord 0x00E0 = .ok .clearDisplay ∧
  ∀ s : State, ∃ t, exec .clearDisplay s = .next t ∧ (∀ r c, t.cell r c = false) ∧ t.dirty = true ∧
    t.pc = s.pc ∧ sameRegs s t ∧ onlyDisplayVfAndPc s t

/-- draw-sprite `Dxyn` (R141, R164): the cells under set bits are toggled, each coordinate wrapped, the others kept; `VF` is 1
exactly when some toggled cell was on; `DIRTY` is set; `n = 0` draws nothing (the spec's D30); out of bounds (log 1, log 9) exactly when `n >= 1`
and `I + n - 1 >= 4096`, a sum that does not wrap (D23). Bit 7 leftmost is the spec's D15; coordinates from the old `VF` when `x` or `y` is `0xF` are D6. -/
def Obligations.DrawSpriteTogglesTheCellsItCovers : Prop :=
  ∀ (x y : RegIdx) (n : BitVec 4), decodeWord (0xD#4 ++ x ++ y ++ n) = .ok (.drawSprite x y n) ∧
    (∀ s : State, (n.toNat = 0 ∨ s.i.toNat + (n.toNat - 1) < 4096) →
      ∃ t, exec (.drawSprite x y n) s = .next t ∧
        (∀ r c, s.spriteCovers (s.reg x) (s.reg y) n r c → t.cell r c = !s.cell r c) ∧
        (∀ r c, ¬ s.spriteCovers (s.reg x) (s.reg y) n r c → t.cell r c = s.cell r c) ∧
        ((∃ r c, s.spriteCovers (s.reg x) (s.reg y) n r c ∧ s.cell r c = true) → t.reg 0xF = 1) ∧
        ((¬ ∃ r c, s.spriteCovers (s.reg x) (s.reg y) n r c ∧ s.cell r c = true) → t.reg 0xF = 0) ∧
        t.dirty = true ∧ t.pc = s.pc ∧ onlyDisplayVfAndPc s t) ∧
    (∀ s : State, 0 < n.toNat → 4096 ≤ s.i.toNat + (n.toNat - 1) →
      failsWith (exec (.drawSprite x y n) s) .memoryAccessOutOfBounds (s.pc - 2) (some (0xD#4 ++ x ++ y ++ n)))

/-- Drawing the same sprite twice at the same place restores the framebuffer; the second draw sets `VF` exactly when a cell under the
sprite was off before the first, so on a framebuffer that is off exactly when the sprite has a set bit (the pseudocode of R141; its
corner case (i) says this last for every framebuffer, which the pseudocode contradicts, log 17). -/
def Obligations.DrawingTwiceRestoresTheFramebuffer : Prop :=
  ∀ (x y : RegIdx) (n : BitVec 4) (s : State), x ≠ 0xF → y ≠ 0xF → (n.toNat = 0 ∨ s.i.toNat + (n.toNat - 1) < 4096) →
    ∃ t u, exec (.drawSprite x y n) s = .next t ∧ exec (.drawSprite x y n) t = .next u ∧
      (∀ r c, u.cell r c = s.cell r c) ∧
      (u.reg 0xF = 1 ↔ ∃ r c, s.spriteCovers (s.reg x) (s.reg y) n r c ∧ s.cell r c = false) ∧
      ((∀ r c, s.cell r c = false) → (u.reg 0xF = 1 ↔ ∃ row < n.toNat, s.readByte (s.i.toNat + row) ≠ 0))

/-! ### Keypad and timers (45_keypad_timers.md) -/

/-- skip-if-key-pressed `Ex9E` and skip-if-key-not-pressed `ExA1` (R150, R151): with `V[x] <= 15` the latch `V[x]` selects decides the
skip and no latch changes; above 15 the outcome is `Unspecified`, a fault (R168, the spec's D10; log 4). -/
def Obligations.KeySkipsTestTheLatch : Prop :=
  ∀ x : RegIdx, decodeWord (0xE#4 ++ x ++ 0x9E#8) = .ok (.skipIfKeyPressed x) ∧
    decodeWord (0xE#4 ++ x ++ 0xA1#8) = .ok (.skipIfKeyNotPressed x) ∧
    (∀ (s : State) (pressed : Bool), s.key[(s.reg x).toNat]? = some pressed →
      (∃ t, exec (.skipIfKeyPressed x) s = .next t ∧ t.pc = (if pressed then s.pc + 2 else s.pc) ∧ onlyPc s t) ∧
      (∃ t, exec (.skipIfKeyNotPressed x) s = .next t ∧ t.pc = (if pressed then s.pc else s.pc + 2) ∧ onlyPc s t)) ∧
    ∀ s : State, 15 < (s.reg x).toNat →
      exec (.skipIfKeyPressed x) s = .fault (.keyIndexOutOfRange (s.pc - 2)) ∧
      exec (.skipIfKeyNotPressed x) s = .fault (.keyIndexOutOfRange (s.pc - 2))

/-- get-delay-timer `Fx07` (R152). -/
def Obligations.GetDelayTimerReadsDt : Prop :=
  ∀ x : RegIdx, decodeWord (0xF#4 ++ x ++ 0x07#8) = .ok (.getDelayTimer x) ∧
    ∀ s : State, ∃ t, exec (.getDelayTimer x) s = .next t ∧ (∀ r, t.reg r = if r = x then s.dt else s.reg r) ∧
      t.pc = s.pc ∧ onlyRegsAndPc s t

/-- wait-for-key `Fx0A` (R153): the lowest pressed key, or `PC` back at the instruction and nothing changed. -/
def Obligations.WaitForKeyTakesTheLowestKey : Prop :=
  ∀ x : RegIdx, decodeWord (0xF#4 ++ x ++ 0x0A#8) = .ok (.waitForKey x) ∧
    (∀ (s : State) (k : Nat), s.key[k]? = some true → (∀ j < k, s.key[j]? = some false) →
      ∃ t, exec (.waitForKey x) s = .next t ∧ (t.reg x).toNat = k ∧ sameRegsBut (· = x) s t ∧
        t.pc = s.pc ∧ onlyRegsAndPc s t) ∧
    (∀ s : State, (∀ k < 16, s.key[k]? = some false) →
      ∃ t, exec (.waitForKey x) s = .next t ∧ t.pc = s.pc - 2 ∧ onlyPc s t)

/-- set-delay-timer `Fx15` and set-sound-timer `Fx18` (R154, R155). -/
def Obligations.TimerSettersCopyTheRegister : Prop :=
  ∀ x : RegIdx, decodeWord (0xF#4 ++ x ++ 0x15#8) = .ok (.setDelayTimer x) ∧
    decodeWord (0xF#4 ++ x ++ 0x18#8) = .ok (.setSoundTimer x) ∧
    ∀ s : State,
      (∃ t, exec (.setDelayTimer x) s = .next t ∧ t.dt = s.reg x ∧ t.st = s.st ∧ t.pc = s.pc ∧ onlyTimersAndPc s t) ∧
      (∃ t, exec (.setSoundTimer x) s = .next t ∧ t.st = s.reg x ∧ t.dt = s.dt ∧ t.pc = s.pc ∧ onlyTimersAndPc s t)

/-! ### Host operations (60_exceptions.md, 70_reset_and_hazards.md) -/

/-- `reset()` leaves the state of R28 whatever the state before (R190, the spec's D21; the table's place is D14); the model's own count of draws goes on (log 5). -/
def Obligations.ResetLeavesTheResetState : Prop :=
  ∀ s : State, ∃ t, perform .reset s = .next (.done, t) ∧ (∀ r, t.reg r = 0) ∧ t.i = 0 ∧ t.pc = 0x200 ∧ t.sp = 0 ∧
    (∀ k < 12, t.stack[k]? = some 0) ∧ t.dt = 0 ∧ t.st = 0 ∧ (∀ k < 16, t.key[k]? = some false) ∧
    (∀ r c, t.cell r c = false) ∧ t.dirty = false ∧ t.halted = false ∧ t.err = none ∧
    (∀ a (h : a < 80), t.readByte a = Config.glyphTable[a]) ∧ (∀ a, 80 ≤ a → t.readByte a = 0)

/-- `load` of at most 3584 bytes succeeds: program space is zeroed, then holds the image from 0x200; the reserved region and
everything else is as before (R192; what the source does not list as unaltered is the spec's D20). -/
def Obligations.LoadCopiesTheImageToProgramSpace : Prop :=
  ∀ (bytes : List Byte) (s : State), bytes.length ≤ 3584 →
    ∃ t, perform (.load bytes) s = .next (.success, t) ∧
      (∀ a, a < 0x200 → t.readByte a = s.readByte a) ∧
      (∀ j, (h : j < bytes.length) → t.readByte (0x200 + j) = bytes[j]) ∧
      (∀ a, 0x200 + bytes.length ≤ a → a < 4096 → t.readByte a = 0) ∧
      t.pc = s.pc ∧ onlyMemAndPc s t

/-- `load` fails exactly when the image is longer than 3584 bytes, and then changes nothing (R193). -/
def Obligations.LoadFailsExactlyPastCapacity : Prop :=
  ∀ (bytes : List Byte) (s : State),
    (3584 < bytes.length → perform (.load bytes) s = .next (.imageTooLarge, s)) ∧
    (bytes.length ≤ 3584 → ∃ t, perform (.load bytes) s = .next (.success, t)) ∧
    (bytes.length = 3584 → ∃ t, perform (.load bytes) s = .next (.success, t) ∧
      ∀ j, (h : j < bytes.length) → t.readByte (0x200 + j) = bytes[j])

/-- `tick_timers()` (R175): each timer is decremented if it is not 0, on its own, and nothing else changes. It is the only thing that
decrements a timer: a completed step keeps a timer unless its instruction copies a register into it, and no host operation but the
tick, reset and step changes one. -/
def Obligations.TickDecrementsEachTimerToZero : Prop :=
  (∀ s : State, ∃ t, perform .tickTimers s = .next (.done, t) ∧
    t.dt.toNat = s.dt.toNat - 1 ∧ t.st.toNat = s.st.toNat - 1 ∧ t.pc = s.pc ∧ onlyTimersAndPc s t) ∧
  (∀ s t : State, completes (step s) t →
    (t.dt = s.dt ∨ ∃ x, decodeWord s.fetch16 = .ok (.setDelayTimer x) ∧ t.dt = s.reg x) ∧
    (t.st = s.st ∨ ∃ x, decodeWord s.fetch16 = .ok (.setSoundTimer x) ∧ t.st = s.reg x)) ∧
  (∀ (o : Operation) (s t : State) (reply : Reply), o ∉ [.tickTimers, .reset, .step] → perform o s = .next (reply, t) →
    t.dt = s.dt ∧ t.st = s.st)

/-- `set_key(k, p)` (R179): exactly one latch takes the value, nothing else changes. The 4-bit index is the spec's D19. -/
def Obligations.SetKeyChangesOneLatch : Prop :=
  ∀ (k : KeyIdx) (p : Bool) (s : State), ∃ t, perform (.setKey k p) s = .next (.done, t) ∧
    (∀ j : KeyIdx, t.keyDown j = if j = k then p else s.keyDown j) ∧ t.pc = s.pc ∧ sameRegs s t ∧ t.i = s.i ∧
    sameMem s t ∧ sameStack s t ∧ sameTimers s t ∧ sameDisplay s t ∧ sameControl s t

/-- The framebuffer read port (R180, R20): the 2048 cells in row-major order, without a side effect, or any one
cell, and no host operation but reset and step changes a cell. -/
def Obligations.FramebufferPortReadsRowMajor : Prop :=
  (∀ s : State, ∃ cells, perform .readFramebuffer s = .next (.framebuffer cells, s) ∧ cells.length = 2048 ∧
    ∀ (r : Fin 32) (c : Fin 64), cells[r.val * 64 + c.val]? = some (s.cell r c)) ∧
  (∀ (s : State) (r : Fin 32) (c : Fin 64), perform (.readCell r c) s = .next (.cell (s.cell r c), s)) ∧
  (∀ (o : Operation) (s t : State) (reply : Reply), o ≠ .reset → o ≠ .step → perform o s = .next (reply, t) →
    ∀ r c, t.cell r c = s.cell r c)

/-- The dirty flag port (R181): read without a side effect, cleared by an explicit operation that changes nothing else; a completed
step sets the flag exactly at the two drawing instructions and never clears it; no other operation sets it, and only `clear_dirty`
and reset clear it. That every completed drawing sets it, changed or not (R22), is the spec's D16, that load leaves it (R192) its
D20 (log 12). -/
def Obligations.DirtyFlagPortReadsAndClears : Prop :=
  (∀ s : State, perform .readDirty s = .next (.dirty s.dirty, s)) ∧
  (∀ s : State, ∃ t, perform .clearDirty s = .next (.done, t) ∧ t.dirty = false ∧ { t with dirty := s.dirty } = s) ∧
  (∀ (s t : State) (i : Instr), decodeWord s.fetch16 = .ok i → completes (step s) t →
    t.dirty = (s.dirty || decide (i.mnemonic ∈ ["clear-display", "draw-sprite"]))) ∧
  (∀ (o : Operation) (s t : State) (reply : Reply), o ≠ .step → perform o s = .next (reply, t) →
    t.dirty = if o = .reset ∨ o = .clearDirty then false else s.dirty)

/-- After `reset` and `load` the first instruction executed is image bytes 0 and 1, fetched at the constant 0x200 (R191). -/
def Obligations.BootRunsImageBytesZeroAndOne : Prop :=
  ∀ (s : State) (b₀ b₁ : Byte) (rest : List Byte), rest.length + 2 ≤ 3584 →
    ∃ t, performAll [.reset, .load (b₀ :: b₁ :: rest)] s = .next t ∧ t.pc = 0x200 ∧ t.halted = false ∧
      ∀ i, decodeBytes [b₀, b₁] = .ok (i, []) → step t = exec i { t with pc := 0x202 }

/-- Stepping a reset but unloaded CORE raises `UnknownOpcode` at 0x200 with the word 0 (R194; log 1; the spec's D2 and D21). -/
def Obligations.UnloadedCoreRaisesUnknownOpcode : Prop :=
  ∀ s : State, ∃ t, perform .reset s = .next (.done, t) ∧ failsWith (step t) .unknownOpcode 0x200 (some 0)

/-- A halted CORE stays halted with the same record under every operation but reset (R87, R170; the latch is the spec's D7). -/
def Obligations.OnlyResetLeavesTheHaltedState : Prop :=
  ∀ (o : Operation) (s : State), s.halted = true → ∃ reply t, perform o s = .next (reply, t) ∧
    if o = .reset then t.halted = false ∧ t.err = none else t.halted = true ∧ t.err = s.err

/-! ### The whole machine -/

/-- The reset state meets the invariant. -/
def Obligations.ResetMeetsTheInvariant : Prop := State.reset.Inv

/-- Every step keeps the invariant (memory in canonical form, R14, R15, R24), from every state that meets it. That the free state
after a fatal error has canonical memory and a depth of at most 12 is the model's choice (log 2). -/
def Obligations.StepKeepsTheInvariant : Prop :=
  ∀ s t : State, s.Inv → step s = .next t → t.Inv

/-- Every execution, any list of host operations in any order (R185, the spec's D18; log 2, log 10), keeps the invariant from every state that meets it. -/
def Obligations.EveryExecutionKeepsTheInvariant : Prop :=
  ∀ (os : List Operation) (s t : State), s.Inv → performAll os s = .next t → t.Inv

/-- Only the instructions whose rules say so change `MEM`, `FB`, `DIRTY`, the stack, `I`, `DT` or `ST`; none changes `KEY` or
clears `DIRTY` (R83, R44, R12, R15, R22). That `store-registers` and `load-registers` leave `I` is the spec's D13 (log 12). -/
def Obligations.OnlyTheNamedInstructionsChangeState : Prop :=
  ∀ (i : Instr) (s t : State), s.halted = false → completes (exec i s) t →
    t.key = s.key ∧ (s.dirty = true → t.dirty = true) ∧
    (i.mnemonic ∉ ["clear-display", "draw-sprite"] → sameDisplay s t) ∧
    (i.mnemonic ∉ ["store-bcd", "store-registers"] → sameMem s t) ∧
    (i.mnemonic ∉ ["call", "return"] → sameStack s t) ∧
    (i.mnemonic ∉ ["set-index", "add-to-index", "set-index-to-glyph"] → t.i = s.i) ∧
    (i.mnemonic ≠ "set-delay-timer" → t.dt = s.dt) ∧ (i.mnemonic ≠ "set-sound-timer" → t.st = s.st)

/-- A completed instruction changes no general register but those its rule names as destination, and `VF` for the six flag-writing
instructions, which leave 0 or 1 there unless it is their destination (R11, R203; D5). -/
def Obligations.OnlyTheNamedRegistersChange : Prop :=
  ∀ (i : Instr) (s t : State), s.halted = false → completes (exec i s) t →
    sameRegsBut i.mayWrite s t ∧
    (i.mnemonic ∈ ["add-reg", "sub-reg", "shift-right", "sub-reg-reverse", "shift-left"] →
      fieldX (encode i) ≠ 0xF → t.reg 0xF = 0 ∨ t.reg 0xF = 1) ∧
    (i.mnemonic = "draw-sprite" → t.reg 0xF = 0 ∨ t.reg 0xF = 1)

/-- Each instruction raises at most one kind of error, recorded with its own address and word (R169, R24; D9; log 1, log 9). -/
def Obligations.EachInstructionRaisesOneKindOfError : Prop :=
  ∀ (i : Instr) (s t : State), s.halted = false → exec i s = .next t → t.halted = true →
    ∃ kind, t.err = some ⟨kind, s.pc - 2, some (encode i)⟩ ∧
      (i.mnemonic, kind) ∈ [("return", ErrorKind.stackUnderflow), ("call", .stackOverflow),
        ("draw-sprite", .memoryAccessOutOfBounds), ("store-bcd", .memoryAccessOutOfBounds),
        ("store-registers", .memoryAccessOutOfBounds), ("load-registers", .memoryAccessOutOfBounds)]

/-- Call then return round-trips `PC` and the depth: a call to a `return` comes back to the address after the call (R100, R102,
source property S6). -/
def Obligations.CallThenReturnRoundTrips : Prop :=
  ∀ (s : State) (nnn : Addr), s.halted = false → s.pc.toNat ≤ 0xFFE → s.sp < 12 → s.fetch16 = 0x2#4 ++ nnn →
    nnn.toNat ≤ 0xFFE → s.readByte nnn.toNat = 0x00 → s.readByte (nnn.toNat + 1) = 0xEE →
    ∃ t u, step s = .next t ∧ step t = .next u ∧ u.pc = s.pc + 2 ∧ u.sp = s.sp ∧
      (∀ k < s.sp, u.stack[k]? = s.stack[k]?) ∧ onlyStackAndPc s u

/-- Code a `store-registers` has just written is fetched by the next step (R56, R205): `V[k]` and `V[k+1]` at `I + k`. That a store
is seen by the next fetch is the spec's own inference D24 (log 12). -/
def Obligations.StoredCodeIsFetchedNext : Prop :=
  ∀ (x k : RegIdx) (s : State), s.halted = false → k.toNat < x.toNat → s.i.toNat + x.toNat < 4096 →
    ∃ t, exec (.storeRegisters x) s = .next t ∧ t.halted = false ∧
      (t.pc.toNat = s.i.toNat + k.toNat →
        ∀ i, decodeBytes [s.reg k, s.reg (k + 1)] = .ok (i, []) → step t = exec i { t with pc := t.pc + 2 })

/-- A jump to its own address leaves the whole state unchanged, step after step: the suggested `END_OF_RUN` (R88, R101; the
predicate is the spec's suggestion D22, log 13). -/
def Obligations.SelfJumpIsAFixedPoint : Prop :=
  ∀ (s : State), s.selfJump → step s = .next s ∧ ∀ n, performAll (List.replicate n .step) s = .next s

/-- While no key is pressed a `wait-for-key` step changes nothing, step after step, until a key is set, and then the register holds it
(R88, R153, R201, source property S8). -/
def Obligations.WaitForKeySpinsUntilAKeyIsSet : Prop :=
  ∀ (s : State) (x : RegIdx) (k : KeyIdx) (n : Nat), s.halted = false → s.pc.toNat ≤ 0xFFE →
    s.fetch16 = 0xF#4 ++ x ++ 0x0A#8 → (∀ j, s.keyDown j = false) →
    performAll (List.replicate n .step) s = .next s ∧
    ∃ t, performAll (List.replicate n .step ++ [.setKey k true, .step]) s = .next t ∧
      (t.reg x).toNat = k.toNat ∧ t.pc = s.pc + 2

/-- No step reads `ST` or `DIRTY` (R17, R22): two states that agree but for them step to outcomes that agree but for them.
Also where the step ends in a fatal error, whose post-error state the spec leaves unspecified (R167, D8): there the agreement rests on
the model's choice that the free state depends on the count of draws alone (log 2). -/
def Obligations.SoundTimerAndDirtyFlagAreNeverRead : Prop :=
  ∀ s t : State, agreeButStAndDirty s t →
    (∀ s', step s = .next s' → ∃ t', step t = .next t' ∧ agreeButStAndDirty s' t') ∧
    (∀ f, step s = .fault f → step t = .fault f)

/-- Dead stack entries are never read (R15): a step from states that differ only in entries at or past the depth gives states that
differ only there. The conclusion is stated for steps that complete. -/
def Obligations.DeadStackEntriesAreNeverRead : Prop :=
  ∀ (s s' : State) (dead : Vector Word 12), s.sp ≤ 12 → (∀ k < s.sp, dead[k]? = s.stack[k]?) →
    completes (step s) s' →
    ∃ stack', completes (step { s with stack := dead }) { s' with stack := stack' } ∧
      ∀ k < s'.sp, stack'[k]? = s'.stack[k]?
end

