-- ==== Sys2Proof/Laws/State.lean ====
section
/-! SUPPORT. One lemma per field and accessor of `State` per named update: what the update leaves there. -/

namespace Sys2Proof.Machine

/-! ### `setReg` -/

@[simp] theorem State.setReg_i (s : State) (r : RegIdx) (b : Byte) : (s.setReg r b).i = s.i := rfl
@[simp] theorem State.setReg_pc (s : State) (r : RegIdx) (b : Byte) : (s.setReg r b).pc = s.pc := rfl
@[simp] theorem State.setReg_stack (s : State) (r : RegIdx) (b : Byte) : (s.setReg r b).stack = s.stack := rfl
@[simp] theorem State.setReg_sp (s : State) (r : RegIdx) (b : Byte) : (s.setReg r b).sp = s.sp := rfl
@[simp] theorem State.setReg_dt (s : State) (r : RegIdx) (b : Byte) : (s.setReg r b).dt = s.dt := rfl
@[simp] theorem State.setReg_st (s : State) (r : RegIdx) (b : Byte) : (s.setReg r b).st = s.st := rfl
@[simp] theorem State.setReg_key (s : State) (r : RegIdx) (b : Byte) : (s.setReg r b).key = s.key := rfl
@[simp] theorem State.setReg_fb (s : State) (r : RegIdx) (b : Byte) : (s.setReg r b).fb = s.fb := rfl
@[simp] theorem State.setReg_dirty (s : State) (r : RegIdx) (b : Byte) : (s.setReg r b).dirty = s.dirty := rfl
@[simp] theorem State.setReg_mem (s : State) (r : RegIdx) (b : Byte) : (s.setReg r b).mem = s.mem := rfl
@[simp] theorem State.setReg_halted (s : State) (r : RegIdx) (b : Byte) : (s.setReg r b).halted = s.halted := rfl
@[simp] theorem State.setReg_err (s : State) (r : RegIdx) (b : Byte) : (s.setReg r b).err = s.err := rfl
@[simp] theorem State.setReg_draws (s : State) (r : RegIdx) (b : Byte) : (s.setReg r b).draws = s.draws := rfl
@[simp] theorem State.setReg_readByte (s : State) (r : RegIdx) (b : Byte) (a : Nat) : (s.setReg r b).readByte a = s.readByte a := rfl
@[simp] theorem State.setReg_stackEntry (s : State) (r : RegIdx) (b : Byte) (k : Nat) : (s.setReg r b).stackEntry k = s.stackEntry k := rfl
@[simp] theorem State.setReg_keyDown (s : State) (r : RegIdx) (b : Byte) (k : KeyIdx) : (s.setReg r b).keyDown k = s.keyDown k := rfl
@[simp] theorem State.setReg_cell (s : State) (r : RegIdx) (b : Byte) (row : Fin 32) (c : Fin 64) : (s.setReg r b).cell row c = s.cell row c := rfl

/-! ### `setPc` -/

@[simp] theorem State.setPc_v (s : State) (w : Word) : (s.setPc w).v = s.v := rfl
@[simp] theorem State.setPc_i (s : State) (w : Word) : (s.setPc w).i = s.i := rfl
@[simp] theorem State.setPc_pc (s : State) (w : Word) : (s.setPc w).pc = w := rfl
@[simp] theorem State.setPc_stack (s : State) (w : Word) : (s.setPc w).stack = s.stack := rfl
@[simp] theorem State.setPc_sp (s : State) (w : Word) : (s.setPc w).sp = s.sp := rfl
@[simp] theorem State.setPc_dt (s : State) (w : Word) : (s.setPc w).dt = s.dt := rfl
@[simp] theorem State.setPc_st (s : State) (w : Word) : (s.setPc w).st = s.st := rfl
@[simp] theorem State.setPc_key (s : State) (w : Word) : (s.setPc w).key = s.key := rfl
@[simp] theorem State.setPc_fb (s : State) (w : Word) : (s.setPc w).fb = s.fb := rfl
@[simp] theorem State.setPc_dirty (s : State) (w : Word) : (s.setPc w).dirty = s.dirty := rfl
@[simp] theorem State.setPc_mem (s : State) (w : Word) : (s.setPc w).mem = s.mem := rfl
@[simp] theorem State.setPc_halted (s : State) (w : Word) : (s.setPc w).halted = s.halted := rfl
@[simp] theorem State.setPc_err (s : State) (w : Word) : (s.setPc w).err = s.err := rfl
@[simp] theorem State.setPc_draws (s : State) (w : Word) : (s.setPc w).draws = s.draws := rfl
@[simp] theorem State.setPc_reg (s : State) (w : Word) (q : RegIdx) : (s.setPc w).reg q = s.reg q := rfl
@[simp] theorem State.setPc_readByte (s : State) (w : Word) (a : Nat) : (s.setPc w).readByte a = s.readByte a := rfl
@[simp] theorem State.setPc_stackEntry (s : State) (w : Word) (k : Nat) : (s.setPc w).stackEntry k = s.stackEntry k := rfl
@[simp] theorem State.setPc_keyDown (s : State) (w : Word) (k : KeyIdx) : (s.setPc w).keyDown k = s.keyDown k := rfl
@[simp] theorem State.setPc_cell (s : State) (w : Word) (r : Fin 32) (c : Fin 64) : (s.setPc w).cell r c = s.cell r c := rfl

/-! ### `setI` -/

@[simp] theorem State.setI_v (s : State) (w : Word) : (s.setI w).v = s.v := rfl
@[simp] theorem State.setI_i (s : State) (w : Word) : (s.setI w).i = w := rfl
@[simp] theorem State.setI_pc (s : State) (w : Word) : (s.setI w).pc = s.pc := rfl
@[simp] theorem State.setI_stack (s : State) (w : Word) : (s.setI w).stack = s.stack := rfl
@[simp] theorem State.setI_sp (s : State) (w : Word) : (s.setI w).sp = s.sp := rfl
@[simp] theorem State.setI_dt (s : State) (w : Word) : (s.setI w).dt = s.dt := rfl
@[simp] theorem State.setI_st (s : State) (w : Word) : (s.setI w).st = s.st := rfl
@[simp] theorem State.setI_key (s : State) (w : Word) : (s.setI w).key = s.key := rfl
@[simp] theorem State.setI_fb (s : State) (w : Word) : (s.setI w).fb = s.fb := rfl
@[simp] theorem State.setI_dirty (s : State) (w : Word) : (s.setI w).dirty = s.dirty := rfl
@[simp] theorem State.setI_mem (s : State) (w : Word) : (s.setI w).mem = s.mem := rfl
@[simp] theorem State.setI_halted (s : State) (w : Word) : (s.setI w).halted = s.halted := rfl
@[simp] theorem State.setI_err (s : State) (w : Word) : (s.setI w).err = s.err := rfl
@[simp] theorem State.setI_draws (s : State) (w : Word) : (s.setI w).draws = s.draws := rfl
@[simp] theorem State.setI_reg (s : State) (w : Word) (q : RegIdx) : (s.setI w).reg q = s.reg q := rfl
@[simp] theorem State.setI_readByte (s : State) (w : Word) (a : Nat) : (s.setI w).readByte a = s.readByte a := rfl
@[simp] theorem State.setI_stackEntry (s : State) (w : Word) (k : Nat) : (s.setI w).stackEntry k = s.stackEntry k := rfl
@[simp] theorem State.setI_keyDown (s : State) (w : Word) (k : KeyIdx) : (s.setI w).keyDown k = s.keyDown k := rfl
@[simp] theorem State.setI_cell (s : State) (w : Word) (r : Fin 32) (c : Fin 64) : (s.setI w).cell r c = s.cell r c := rfl

/-! ### `setDt` -/

@[simp] theorem State.setDt_v (s : State) (b : Byte) : (s.setDt b).v = s.v := rfl
@[simp] theorem State.setDt_i (s : State) (b : Byte) : (s.setDt b).i = s.i := rfl
@[simp] theorem State.setDt_pc (s : State) (b : Byte) : (s.setDt b).pc = s.pc := rfl
@[simp] theorem State.setDt_stack (s : State) (b : Byte) : (s.setDt b).stack = s.stack := rfl
@[simp] theorem State.setDt_sp (s : State) (b : Byte) : (s.setDt b).sp = s.sp := rfl
@[simp] theorem State.setDt_dt (s : State) (b : Byte) : (s.setDt b).dt = b := rfl
@[simp] theorem State.setDt_st (s : State) (b : Byte) : (s.setDt b).st = s.st := rfl
@[simp] theorem State.setDt_key (s : State) (b : Byte) : (s.setDt b).key = s.key := rfl
@[simp] theorem State.setDt_fb (s : State) (b : Byte) : (s.setDt b).fb = s.fb := rfl
@[simp] theorem State.setDt_dirty (s : State) (b : Byte) : (s.setDt b).dirty = s.dirty := rfl
@[simp] theorem State.setDt_mem (s : State) (b : Byte) : (s.setDt b).mem = s.mem := rfl
@[simp] theorem State.setDt_halted (s : State) (b : Byte) : (s.setDt b).halted = s.halted := rfl
@[simp] theorem State.setDt_err (s : State) (b : Byte) : (s.setDt b).err = s.err := rfl
@[simp] theorem State.setDt_draws (s : State) (b : Byte) : (s.setDt b).draws = s.draws := rfl
@[simp] theorem State.setDt_reg (s : State) (b : Byte) (q : RegIdx) : (s.setDt b).reg q = s.reg q := rfl
@[simp] theorem State.setDt_readByte (s : State) (b : Byte) (a : Nat) : (s.setDt b).readByte a = s.readByte a := rfl
@[simp] theorem State.setDt_stackEntry (s : State) (b : Byte) (k : Nat) : (s.setDt b).stackEntry k = s.stackEntry k := rfl
@[simp] theorem State.setDt_keyDown (s : State) (b : Byte) (k : KeyIdx) : (s.setDt b).keyDown k = s.keyDown k := rfl
@[simp] theorem State.setDt_cell (s : State) (b : Byte) (r : Fin 32) (c : Fin 64) : (s.setDt b).cell r c = s.cell r c := rfl

/-! ### `setSt` -/

@[simp] theorem State.setSt_v (s : State) (b : Byte) : (s.setSt b).v = s.v := rfl
@[simp] theorem State.setSt_i (s : State) (b : Byte) : (s.setSt b).i = s.i := rfl
@[simp] theorem State.setSt_pc (s : State) (b : Byte) : (s.setSt b).pc = s.pc := rfl
@[simp] theorem State.setSt_stack (s : State) (b : Byte) : (s.setSt b).stack = s.stack := rfl
@[simp] theorem State.setSt_sp (s : State) (b : Byte) : (s.setSt b).sp = s.sp := rfl
@[simp] theorem State.setSt_dt (s : State) (b : Byte) : (s.setSt b).dt = s.dt := rfl
@[simp] theorem State.setSt_st (s : State) (b : Byte) : (s.setSt b).st = b := rfl
@[simp] theorem State.setSt_key (s : State) (b : Byte) : (s.setSt b).key = s.key := rfl
@[simp] theorem State.setSt_fb (s : State) (b : Byte) : (s.setSt b).fb = s.fb := rfl
@[simp] theorem State.setSt_dirty (s : State) (b : Byte) : (s.setSt b).dirty = s.dirty := rfl
@[simp] theorem State.setSt_mem (s : State) (b : Byte) : (s.setSt b).mem = s.mem := rfl
@[simp] theorem State.setSt_halted (s : State) (b : Byte) : (s.setSt b).halted = s.halted := rfl
@[simp] theorem State.setSt_err (s : State) (b : Byte) : (s.setSt b).err = s.err := rfl
@[simp] theorem State.setSt_draws (s : State) (b : Byte) : (s.setSt b).draws = s.draws := rfl
@[simp] theorem State.setSt_reg (s : State) (b : Byte) (q : RegIdx) : (s.setSt b).reg q = s.reg q := rfl
@[simp] theorem State.setSt_readByte (s : State) (b : Byte) (a : Nat) : (s.setSt b).readByte a = s.readByte a := rfl
@[simp] theorem State.setSt_stackEntry (s : State) (b : Byte) (k : Nat) : (s.setSt b).stackEntry k = s.stackEntry k := rfl
@[simp] theorem State.setSt_keyDown (s : State) (b : Byte) (k : KeyIdx) : (s.setSt b).keyDown k = s.keyDown k := rfl
@[simp] theorem State.setSt_cell (s : State) (b : Byte) (r : Fin 32) (c : Fin 64) : (s.setSt b).cell r c = s.cell r c := rfl

/-! ### `pushPc` -/

@[simp] theorem State.pushPc_v (s : State) : s.pushPc.v = s.v := rfl
@[simp] theorem State.pushPc_i (s : State) : s.pushPc.i = s.i := rfl
@[simp] theorem State.pushPc_pc (s : State) : s.pushPc.pc = s.pc := rfl
@[simp] theorem State.pushPc_stack (s : State) : s.pushPc.stack = s.stack.setIfInBounds s.sp s.pc := rfl
@[simp] theorem State.pushPc_sp (s : State) : s.pushPc.sp = s.sp + 1 := rfl
@[simp] theorem State.pushPc_dt (s : State) : s.pushPc.dt = s.dt := rfl
@[simp] theorem State.pushPc_st (s : State) : s.pushPc.st = s.st := rfl
@[simp] theorem State.pushPc_key (s : State) : s.pushPc.key = s.key := rfl
@[simp] theorem State.pushPc_fb (s : State) : s.pushPc.fb = s.fb := rfl
@[simp] theorem State.pushPc_dirty (s : State) : s.pushPc.dirty = s.dirty := rfl
@[simp] theorem State.pushPc_mem (s : State) : s.pushPc.mem = s.mem := rfl
@[simp] theorem State.pushPc_halted (s : State) : s.pushPc.halted = s.halted := rfl
@[simp] theorem State.pushPc_err (s : State) : s.pushPc.err = s.err := rfl
@[simp] theorem State.pushPc_draws (s : State) : s.pushPc.draws = s.draws := rfl
@[simp] theorem State.pushPc_reg (s : State) (q : RegIdx) : s.pushPc.reg q = s.reg q := rfl
@[simp] theorem State.pushPc_readByte (s : State) (a : Nat) : s.pushPc.readByte a = s.readByte a := rfl
@[simp] theorem State.pushPc_keyDown (s : State) (k : KeyIdx) : s.pushPc.keyDown k = s.keyDown k := rfl
@[simp] theorem State.pushPc_cell (s : State) (r : Fin 32) (c : Fin 64) : s.pushPc.cell r c = s.cell r c := rfl

/-! ### `popPc` -/

@[simp] theorem State.popPc_v (s : State) : s.popPc.v = s.v := rfl
@[simp] theorem State.popPc_i (s : State) : s.popPc.i = s.i := rfl
@[simp] theorem State.popPc_pc (s : State) : s.popPc.pc = s.stackEntry (s.sp - 1) := rfl
@[simp] theorem State.popPc_stack (s : State) : s.popPc.stack = s.stack := rfl
@[simp] theorem State.popPc_sp (s : State) : s.popPc.sp = s.sp - 1 := rfl
@[simp] theorem State.popPc_dt (s : State) : s.popPc.dt = s.dt := rfl
@[simp] theorem State.popPc_st (s : State) : s.popPc.st = s.st := rfl
@[simp] theorem State.popPc_key (s : State) : s.popPc.key = s.key := rfl
@[simp] theorem State.popPc_fb (s : State) : s.popPc.fb = s.fb := rfl
@[simp] theorem State.popPc_dirty (s : State) : s.popPc.dirty = s.dirty := rfl
@[simp] theorem State.popPc_mem (s : State) : s.popPc.mem = s.mem := rfl
@[simp] theorem State.popPc_halted (s : State) : s.popPc.halted = s.halted := rfl
@[simp] theorem State.popPc_err (s : State) : s.popPc.err = s.err := rfl
@[simp] theorem State.popPc_draws (s : State) : s.popPc.draws = s.draws := rfl
@[simp] theorem State.popPc_reg (s : State) (q : RegIdx) : s.popPc.reg q = s.reg q := rfl
@[simp] theorem State.popPc_readByte (s : State) (a : Nat) : s.popPc.readByte a = s.readByte a := rfl
@[simp] theorem State.popPc_stackEntry (s : State) (k : Nat) : s.popPc.stackEntry k = s.stackEntry k := rfl
@[simp] theorem State.popPc_keyDown (s : State) (k : KeyIdx) : s.popPc.keyDown k = s.keyDown k := rfl
@[simp] theorem State.popPc_cell (s : State) (r : Fin 32) (c : Fin 64) : s.popPc.cell r c = s.cell r c := rfl

/-! ### `storeAtI` -/

@[simp] theorem State.storeAtI_v (s : State) (bs : List Byte) : (s.storeAtI bs).v = s.v := rfl
@[simp] theorem State.storeAtI_i (s : State) (bs : List Byte) : (s.storeAtI bs).i = s.i := rfl
@[simp] theorem State.storeAtI_pc (s : State) (bs : List Byte) : (s.storeAtI bs).pc = s.pc := rfl
@[simp] theorem State.storeAtI_stack (s : State) (bs : List Byte) : (s.storeAtI bs).stack = s.stack := rfl
@[simp] theorem State.storeAtI_sp (s : State) (bs : List Byte) : (s.storeAtI bs).sp = s.sp := rfl
@[simp] theorem State.storeAtI_dt (s : State) (bs : List Byte) : (s.storeAtI bs).dt = s.dt := rfl
@[simp] theorem State.storeAtI_st (s : State) (bs : List Byte) : (s.storeAtI bs).st = s.st := rfl
@[simp] theorem State.storeAtI_key (s : State) (bs : List Byte) : (s.storeAtI bs).key = s.key := rfl
@[simp] theorem State.storeAtI_fb (s : State) (bs : List Byte) : (s.storeAtI bs).fb = s.fb := rfl
@[simp] theorem State.storeAtI_dirty (s : State) (bs : List Byte) : (s.storeAtI bs).dirty = s.dirty := rfl
@[simp] theorem State.storeAtI_mem (s : State) (bs : List Byte) : (s.storeAtI bs).mem = s.mem.writeBytes (s.ea 0) bs := rfl
@[simp] theorem State.storeAtI_halted (s : State) (bs : List Byte) : (s.storeAtI bs).halted = s.halted := rfl
@[simp] theorem State.storeAtI_err (s : State) (bs : List Byte) : (s.storeAtI bs).err = s.err := rfl
@[simp] theorem State.storeAtI_draws (s : State) (bs : List Byte) : (s.storeAtI bs).draws = s.draws := rfl
@[simp] theorem State.storeAtI_reg (s : State) (bs : List Byte) (q : RegIdx) : (s.storeAtI bs).reg q = s.reg q := rfl
@[simp] theorem State.storeAtI_stackEntry (s : State) (bs : List Byte) (k : Nat) : (s.storeAtI bs).stackEntry k = s.stackEntry k := rfl
@[simp] theorem State.storeAtI_keyDown (s : State) (bs : List Byte) (k : KeyIdx) : (s.storeAtI bs).keyDown k = s.keyDown k := rfl
@[simp] theorem State.storeAtI_cell (s : State) (bs : List Byte) (r : Fin 32) (c : Fin 64) : (s.storeAtI bs).cell r c = s.cell r c := rfl

/-! ### `present` -/

@[simp] theorem State.present_v (s : State) (f : Framebuffer) : (s.present f).v = s.v := rfl
@[simp] theorem State.present_i (s : State) (f : Framebuffer) : (s.present f).i = s.i := rfl
@[simp] theorem State.present_pc (s : State) (f : Framebuffer) : (s.present f).pc = s.pc := rfl
@[simp] theorem State.present_stack (s : State) (f : Framebuffer) : (s.present f).stack = s.stack := rfl
@[simp] theorem State.present_sp (s : State) (f : Framebuffer) : (s.present f).sp = s.sp := rfl
@[simp] theorem State.present_dt (s : State) (f : Framebuffer) : (s.present f).dt = s.dt := rfl
@[simp] theorem State.present_st (s : State) (f : Framebuffer) : (s.present f).st = s.st := rfl
@[simp] theorem State.present_key (s : State) (f : Framebuffer) : (s.present f).key = s.key := rfl
@[simp] theorem State.present_fb (s : State) (f : Framebuffer) : (s.present f).fb = f := rfl
@[simp] theorem State.present_dirty (s : State) (f : Framebuffer) : (s.present f).dirty = true := rfl
@[simp] theorem State.present_mem (s : State) (f : Framebuffer) : (s.present f).mem = s.mem := rfl
@[simp] theorem State.present_halted (s : State) (f : Framebuffer) : (s.present f).halted = s.halted := rfl
@[simp] theorem State.present_err (s : State) (f : Framebuffer) : (s.present f).err = s.err := rfl
@[simp] theorem State.present_draws (s : State) (f : Framebuffer) : (s.present f).draws = s.draws := rfl
@[simp] theorem State.present_reg (s : State) (f : Framebuffer) (q : RegIdx) : (s.present f).reg q = s.reg q := rfl
@[simp] theorem State.present_readByte (s : State) (f : Framebuffer) (a : Nat) : (s.present f).readByte a = s.readByte a := rfl
@[simp] theorem State.present_stackEntry (s : State) (f : Framebuffer) (k : Nat) : (s.present f).stackEntry k = s.stackEntry k := rfl
@[simp] theorem State.present_keyDown (s : State) (f : Framebuffer) (k : KeyIdx) : (s.present f).keyDown k = s.keyDown k := rfl

/-! ### `rand8` -/

@[simp] theorem State.rand8_v (s : State) : s.rand8.2.v = s.v := rfl
@[simp] theorem State.rand8_i (s : State) : s.rand8.2.i = s.i := rfl
@[simp] theorem State.rand8_pc (s : State) : s.rand8.2.pc = s.pc := rfl
@[simp] theorem State.rand8_stack (s : State) : s.rand8.2.stack = s.stack := rfl
@[simp] theorem State.rand8_sp (s : State) : s.rand8.2.sp = s.sp := rfl
@[simp] theorem State.rand8_dt (s : State) : s.rand8.2.dt = s.dt := rfl
@[simp] theorem State.rand8_st (s : State) : s.rand8.2.st = s.st := rfl
@[simp] theorem State.rand8_key (s : State) : s.rand8.2.key = s.key := rfl
@[simp] theorem State.rand8_fb (s : State) : s.rand8.2.fb = s.fb := rfl
@[simp] theorem State.rand8_dirty (s : State) : s.rand8.2.dirty = s.dirty := rfl
@[simp] theorem State.rand8_mem (s : State) : s.rand8.2.mem = s.mem := rfl
@[simp] theorem State.rand8_halted (s : State) : s.rand8.2.halted = s.halted := rfl
@[simp] theorem State.rand8_err (s : State) : s.rand8.2.err = s.err := rfl
@[simp] theorem State.rand8_draws (s : State) : s.rand8.2.draws = s.draws + 1 := rfl
@[simp] theorem State.rand8_reg (s : State) (q : RegIdx) : s.rand8.2.reg q = s.reg q := rfl
@[simp] theorem State.rand8_readByte (s : State) (a : Nat) : s.rand8.2.readByte a = s.readByte a := rfl
@[simp] theorem State.rand8_stackEntry (s : State) (k : Nat) : s.rand8.2.stackEntry k = s.stackEntry k := rfl
@[simp] theorem State.rand8_keyDown (s : State) (k : KeyIdx) : s.rand8.2.keyDown k = s.keyDown k := rfl
@[simp] theorem State.rand8_cell (s : State) (r : Fin 32) (c : Fin 64) : s.rand8.2.cell r c = s.cell r c := rfl

/-! ### `tickTimers` -/

@[simp] theorem State.tickTimers_v (s : State) : s.tickTimers.v = s.v := rfl
@[simp] theorem State.tickTimers_i (s : State) : s.tickTimers.i = s.i := rfl
@[simp] theorem State.tickTimers_pc (s : State) : s.tickTimers.pc = s.pc := rfl
@[simp] theorem State.tickTimers_stack (s : State) : s.tickTimers.stack = s.stack := rfl
@[simp] theorem State.tickTimers_sp (s : State) : s.tickTimers.sp = s.sp := rfl
@[simp] theorem State.tickTimers_dt (s : State) : s.tickTimers.dt = tickTimer s.dt := rfl
@[simp] theorem State.tickTimers_st (s : State) : s.tickTimers.st = tickTimer s.st := rfl
@[simp] theorem State.tickTimers_key (s : State) : s.tickTimers.key = s.key := rfl
@[simp] theorem State.tickTimers_fb (s : State) : s.tickTimers.fb = s.fb := rfl
@[simp] theorem State.tickTimers_dirty (s : State) : s.tickTimers.dirty = s.dirty := rfl
@[simp] theorem State.tickTimers_mem (s : State) : s.tickTimers.mem = s.mem := rfl
@[simp] theorem State.tickTimers_halted (s : State) : s.tickTimers.halted = s.halted := rfl
@[simp] theorem State.tickTimers_err (s : State) : s.tickTimers.err = s.err := rfl
@[simp] theorem State.tickTimers_draws (s : State) : s.tickTimers.draws = s.draws := rfl
@[simp] theorem State.tickTimers_reg (s : State) (q : RegIdx) : s.tickTimers.reg q = s.reg q := rfl
@[simp] theorem State.tickTimers_readByte (s : State) (a : Nat) : s.tickTimers.readByte a = s.readByte a := rfl
@[simp] theorem State.tickTimers_stackEntry (s : State) (k : Nat) : s.tickTimers.stackEntry k = s.stackEntry k := rfl
@[simp] theorem State.tickTimers_keyDown (s : State) (k : KeyIdx) : s.tickTimers.keyDown k = s.keyDown k := rfl
@[simp] theorem State.tickTimers_cell (s : State) (r : Fin 32) (c : Fin 64) : s.tickTimers.cell r c = s.cell r c := rfl

/-! ### `setKey` -/

@[simp] theorem State.setKey_v (s : State) (k : KeyIdx) (p : Bool) : (s.setKey k p).v = s.v := rfl
@[simp] theorem State.setKey_i (s : State) (k : KeyIdx) (p : Bool) : (s.setKey k p).i = s.i := rfl
@[simp] theorem State.setKey_pc (s : State) (k : KeyIdx) (p : Bool) : (s.setKey k p).pc = s.pc := rfl
@[simp] theorem State.setKey_stack (s : State) (k : KeyIdx) (p : Bool) : (s.setKey k p).stack = s.stack := rfl
@[simp] theorem State.setKey_sp (s : State) (k : KeyIdx) (p : Bool) : (s.setKey k p).sp = s.sp := rfl
@[simp] theorem State.setKey_dt (s : State) (k : KeyIdx) (p : Bool) : (s.setKey k p).dt = s.dt := rfl
@[simp] theorem State.setKey_st (s : State) (k : KeyIdx) (p : Bool) : (s.setKey k p).st = s.st := rfl
@[simp] theorem State.setKey_fb (s : State) (k : KeyIdx) (p : Bool) : (s.setKey k p).fb = s.fb := rfl
@[simp] theorem State.setKey_dirty (s : State) (k : KeyIdx) (p : Bool) : (s.setKey k p).dirty = s.dirty := rfl
@[simp] theorem State.setKey_mem (s : State) (k : KeyIdx) (p : Bool) : (s.setKey k p).mem = s.mem := rfl
@[simp] theorem State.setKey_halted (s : State) (k : KeyIdx) (p : Bool) : (s.setKey k p).halted = s.halted := rfl
@[simp] theorem State.setKey_err (s : State) (k : KeyIdx) (p : Bool) : (s.setKey k p).err = s.err := rfl
@[simp] theorem State.setKey_draws (s : State) (k : KeyIdx) (p : Bool) : (s.setKey k p).draws = s.draws := rfl
@[simp] theorem State.setKey_reg (s : State) (k : KeyIdx) (p : Bool) (q : RegIdx) : (s.setKey k p).reg q = s.reg q := rfl
@[simp] theorem State.setKey_readByte (s : State) (k : KeyIdx) (p : Bool) (a : Nat) : (s.setKey k p).readByte a = s.readByte a := rfl
@[simp] theorem State.setKey_stackEntry (s : State) (k : KeyIdx) (p : Bool) (j : Nat) : (s.setKey k p).stackEntry j = s.stackEntry j := rfl
@[simp] theorem State.setKey_cell (s : State) (k : KeyIdx) (p : Bool) (r : Fin 32) (c : Fin 64) : (s.setKey k p).cell r c = s.cell r c := rfl

/-! ### `clearDirty` -/

@[simp] theorem State.clearDirty_v (s : State) : s.clearDirty.v = s.v := rfl
@[simp] theorem State.clearDirty_i (s : State) : s.clearDirty.i = s.i := rfl
@[simp] theorem State.clearDirty_pc (s : State) : s.clearDirty.pc = s.pc := rfl
@[simp] theorem State.clearDirty_stack (s : State) : s.clearDirty.stack = s.stack := rfl
@[simp] theorem State.clearDirty_sp (s : State) : s.clearDirty.sp = s.sp := rfl
@[simp] theorem State.clearDirty_dt (s : State) : s.clearDirty.dt = s.dt := rfl
@[simp] theorem State.clearDirty_st (s : State) : s.clearDirty.st = s.st := rfl
@[simp] theorem State.clearDirty_key (s : State) : s.clearDirty.key = s.key := rfl
@[simp] theorem State.clearDirty_fb (s : State) : s.clearDirty.fb = s.fb := rfl
@[simp] theorem State.clearDirty_dirty (s : State) : s.clearDirty.dirty = false := rfl
@[simp] theorem State.clearDirty_mem (s : State) : s.clearDirty.mem = s.mem := rfl
@[simp] theorem State.clearDirty_halted (s : State) : s.clearDirty.halted = s.halted := rfl
@[simp] theorem State.clearDirty_err (s : State) : s.clearDirty.err = s.err := rfl
@[simp] theorem State.clearDirty_draws (s : State) : s.clearDirty.draws = s.draws := rfl
@[simp] theorem State.clearDirty_reg (s : State) (q : RegIdx) : s.clearDirty.reg q = s.reg q := rfl
@[simp] theorem State.clearDirty_readByte (s : State) (a : Nat) : s.clearDirty.readByte a = s.readByte a := rfl
@[simp] theorem State.clearDirty_stackEntry (s : State) (k : Nat) : s.clearDirty.stackEntry k = s.stackEntry k := rfl
@[simp] theorem State.clearDirty_keyDown (s : State) (k : KeyIdx) : s.clearDirty.keyDown k = s.keyDown k := rfl
@[simp] theorem State.clearDirty_cell (s : State) (r : Fin 32) (c : Fin 64) : s.clearDirty.cell r c = s.cell r c := rfl

/-! ### `loadImage` -/

@[simp] theorem State.loadImage_v (s : State) (bs : List Byte) : (s.loadImage bs).v = s.v := rfl
@[simp] theorem State.loadImage_i (s : State) (bs : List Byte) : (s.loadImage bs).i = s.i := rfl
@[simp] theorem State.loadImage_pc (s : State) (bs : List Byte) : (s.loadImage bs).pc = s.pc := rfl
@[simp] theorem State.loadImage_stack (s : State) (bs : List Byte) : (s.loadImage bs).stack = s.stack := rfl
@[simp] theorem State.loadImage_sp (s : State) (bs : List Byte) : (s.loadImage bs).sp = s.sp := rfl
@[simp] theorem State.loadImage_dt (s : State) (bs : List Byte) : (s.loadImage bs).dt = s.dt := rfl
@[simp] theorem State.loadImage_st (s : State) (bs : List Byte) : (s.loadImage bs).st = s.st := rfl
@[simp] theorem State.loadImage_key (s : State) (bs : List Byte) : (s.loadImage bs).key = s.key := rfl
@[simp] theorem State.loadImage_fb (s : State) (bs : List Byte) : (s.loadImage bs).fb = s.fb := rfl
@[simp] theorem State.loadImage_dirty (s : State) (bs : List Byte) : (s.loadImage bs).dirty = s.dirty := rfl
@[simp] theorem State.loadImage_mem (s : State) (bs : List Byte) : (s.loadImage bs).mem = s.mem.load bs := rfl
@[simp] theorem State.loadImage_halted (s : State) (bs : List Byte) : (s.loadImage bs).halted = s.halted := rfl
@[simp] theorem State.loadImage_err (s : State) (bs : List Byte) : (s.loadImage bs).err = s.err := rfl
@[simp] theorem State.loadImage_draws (s : State) (bs : List Byte) : (s.loadImage bs).draws = s.draws := rfl
@[simp] theorem State.loadImage_reg (s : State) (bs : List Byte) (q : RegIdx) : (s.loadImage bs).reg q = s.reg q := rfl
@[simp] theorem State.loadImage_stackEntry (s : State) (bs : List Byte) (k : Nat) : (s.loadImage bs).stackEntry k = s.stackEntry k := rfl
@[simp] theorem State.loadImage_keyDown (s : State) (bs : List Byte) (k : KeyIdx) : (s.loadImage bs).keyDown k = s.keyDown k := rfl
@[simp] theorem State.loadImage_cell (s : State) (bs : List Byte) (r : Fin 32) (c : Fin 64) : (s.loadImage bs).cell r c = s.cell r c := rfl

/-! ### The sizes as numbers -/

@[simp] theorem memSize_eq : Config.memSize = 4096 := rfl

@[simp] theorem stackCap_eq : Config.stackCap = 12 := rfl

@[simp] theorem progBase_eq : Config.progBase = 0x200 := rfl

@[simp] theorem progCap_eq : Config.progCap = 3584 := rfl

@[simp] theorem glyphBytes_eq : Config.glyphBytes = 80 := rfl

@[simp] theorem flagReg_eq : Config.flagReg = 0xF := rfl

/-! ### The updates written over others -/

@[simp] theorem State.advancePc_eq (s : State) : s.advancePc = s.setPc (s.pc + 2) := rfl

@[simp] theorem State.setVf_eq (s : State) (b : Byte) : s.setVf b = s.setReg 0xF b := rfl

@[simp] theorem State.writeFlagThen_eq (s : State) (f : Byte) (x : RegIdx) (b : Byte) :
    s.writeFlagThen f x b = (s.setReg 0xF f).setReg x b := rfl

@[simp] theorem State.vf_eq (s : State) : s.vf = s.reg 0xF := rfl

@[simp] theorem State.skipIf_eq (s : State) (c : Bool) : s.skipIf c = s.setPc (if c then s.pc + 2 else s.pc) := by
  cases c <;> rfl

@[simp] theorem State.rand8_fst (s : State) : s.rand8.1 = Config.rand8 s.draws := rfl

@[simp] theorem State.ea_eq (s : State) (k : Nat) : s.ea k = s.i.toNat + k := rfl

/-! ### The registers, latches and cells an update writes -/

@[simp] theorem State.reg_setReg (s : State) (r q : RegIdx) (b : Byte) :
    (s.setReg r b).reg q = if q = r then b else s.reg q := by
  simp only [State.reg, State.setReg, Vector.getElem_set, BitVec.toNat_inj, eq_comm]

@[simp] theorem State.keyDown_setKey (s : State) (k j : KeyIdx) (p : Bool) :
    (s.setKey k p).keyDown j = if j = k then p else s.keyDown j := by
  simp only [State.keyDown, State.setKey, Vector.getElem_set, BitVec.toNat_inj, eq_comm]

@[simp] theorem State.cell_present (s : State) (f : Framebuffer) (r : Fin 32) (c : Fin 64) :
    (s.present f).cell r c = cellOf f r c := rfl

@[simp] theorem cellOf_clearedFb (r : Fin 32) (c : Fin 64) : cellOf clearedFb r c = false := by
  simp [cellOf, clearedFb]

end Sys2Proof.Machine
end

