-- ==== Sys2Proof/Laws/Decode.lean ====
section
/-! SUPPORT. The fields of words put together from fields, words put together again from their fields, and the byte layout of a word. -/

namespace Sys2Proof

/-! ### Format NNN -/

@[simp] theorem fieldF_nnn (f : BitVec 4) (nnn : Addr) : fieldF (f ++ nnn) = f := BitVec.extractLsb'_append_eq_left

@[simp] theorem fieldNNN_nnn (f : BitVec 4) (nnn : Addr) : fieldNNN (f ++ nnn) = nnn := BitVec.extractLsb'_append_eq_right

/-! ### Formats XKK and X -/

@[simp] theorem fieldF_xkk (f : BitVec 4) (x : RegIdx) (kk : Byte) : fieldF (f ++ x ++ kk) = f :=
  (BitVec.extractLsb'_append_eq_of_le (xhi := f ++ x) (start := 12) (len := 4) (by omega)).trans
    BitVec.extractLsb'_append_eq_left

@[simp] theorem fieldX_xkk (f : BitVec 4) (x : RegIdx) (kk : Byte) : fieldX (f ++ x ++ kk) = x :=
  (BitVec.extractLsb'_append_eq_of_le (xhi := f ++ x) (start := 8) (len := 4) (by omega)).trans
    BitVec.extractLsb'_append_eq_right

@[simp] theorem fieldKK_xkk (f : BitVec 4) (x : RegIdx) (kk : Byte) : fieldKK (f ++ x ++ kk) = kk :=
  BitVec.extractLsb'_append_eq_right

/-! ### Formats XY and XYN -/

@[simp] theorem fieldF_xyn (f : BitVec 4) (x y : RegIdx) (n : BitVec 4) : fieldF (f ++ x ++ y ++ n) = f :=
  ((BitVec.extractLsb'_append_eq_of_le (xhi := f ++ x ++ y) (start := 12) (len := 4) (by omega)).trans
    (BitVec.extractLsb'_append_eq_of_le (xhi := f ++ x) (start := 8) (len := 4) (by omega))).trans
    BitVec.extractLsb'_append_eq_left

@[simp] theorem fieldX_xyn (f : BitVec 4) (x y : RegIdx) (n : BitVec 4) : fieldX (f ++ x ++ y ++ n) = x :=
  ((BitVec.extractLsb'_append_eq_of_le (xhi := f ++ x ++ y) (start := 8) (len := 4) (by omega)).trans
    (BitVec.extractLsb'_append_eq_of_le (xhi := f ++ x) (start := 4) (len := 4) (by omega))).trans
    BitVec.extractLsb'_append_eq_right

@[simp] theorem fieldY_xyn (f : BitVec 4) (x y : RegIdx) (n : BitVec 4) : fieldY (f ++ x ++ y ++ n) = y :=
  (BitVec.extractLsb'_append_eq_of_le (xhi := f ++ x ++ y) (start := 4) (len := 4) (by omega)).trans
    BitVec.extractLsb'_append_eq_right

@[simp] theorem fieldN_xyn (f : BitVec 4) (x y : RegIdx) (n : BitVec 4) : fieldN (f ++ x ++ y ++ n) = n :=
  BitVec.extractLsb'_append_eq_right

/-! ### A word is its fields -/

theorem word_eq_nnn (op : Word) : fieldF op ++ fieldNNN op = op := by
  unfold fieldF fieldNNN
  ext i hi
  simp only [BitVec.getElem_append, BitVec.getElem_extractLsb']
  split
  · simp [BitVec.getLsbD_eq_getElem hi]
  · rw [show 12 + (i - 12) = i by omega, BitVec.getLsbD_eq_getElem hi]

theorem word_eq_xkk (op : Word) : fieldF op ++ fieldX op ++ fieldKK op = op := by
  unfold fieldF fieldX fieldKK
  ext i hi
  simp only [BitVec.getElem_append, BitVec.getElem_extractLsb']
  split
  · simp [BitVec.getLsbD_eq_getElem hi]
  · split
    · rw [show 8 + (i - 8) = i by omega, BitVec.getLsbD_eq_getElem hi]
    · rw [show 12 + (i - 8 - 4) = i by omega, BitVec.getLsbD_eq_getElem hi]

theorem word_eq_xyn (op : Word) : fieldF op ++ fieldX op ++ fieldY op ++ fieldN op = op := by
  unfold fieldF fieldX fieldY fieldN
  ext i hi
  simp only [BitVec.getElem_append, BitVec.getElem_extractLsb']
  split
  · simp [BitVec.getLsbD_eq_getElem hi]
  · split
    · rw [show 4 + (i - 4) = i by omega, BitVec.getLsbD_eq_getElem hi]
    · split
      · rw [show 8 + (i - 4 - 4) = i by omega, BitVec.getLsbD_eq_getElem hi]
      · rw [show 12 + (i - 4 - 4 - 4) = i by omega, BitVec.getLsbD_eq_getElem hi]

/-! ### Bytes -/

@[simp] theorem wordOfBytes_bytesOfWord (op : Word) :
    wordOfBytes (op.extractLsb' 8 8) (op.extractLsb' 0 8) = op := by
  unfold wordOfBytes
  ext i hi
  simp only [BitVec.getElem_append, BitVec.getElem_extractLsb']
  split
  · simp [BitVec.getLsbD_eq_getElem hi]
  · rw [show 8 + (i - 8) = i by omega, BitVec.getLsbD_eq_getElem hi]

/-- Decoding the two bytes of a word is decoding the word. -/
theorem decodeBytes_bytesOfWord (op : Word) (rest : List Byte) :
    decodeBytes (bytesOfWord op ++ rest) =
      match decodeWord op with
      | .ok i => .ok (i, rest)
      | .error e => .error e := by
  cases h : decodeWord op <;> simp [bytesOfWord, decodeBytes, h]

@[simp] theorem tableWord_toNat (op : Word) : tableWord 16 op.toNat = op := by
  simp only [tableWord, Nat.mod_eq_of_lt op.isLt, BitVec.ofNat_toNat, BitVec.setWidth_eq]

/-! ### Masks of the opcode map (R62) -/

theorem mask_nnn (f : BitVec 4) (nnn : Addr) : (f ++ nnn : Word) &&& 0xF000#16 = f ++ 0#12 := by
  have : (0xF000#16 : Word) = 0xF#4 ++ 0#12 := by decide
  rw [this, BitVec.and_append, BitVec.and_zero]
  congr 1
  exact BitVec.and_allOnes

theorem mask_xkk (f : BitVec 4) (x : RegIdx) (kk : Byte) : (f ++ x ++ kk : Word) &&& 0xF000#16 = f ++ 0#4 ++ 0#8 := by
  have : (0xF000#16 : Word) = 0xF#4 ++ 0#4 ++ 0#8 := by decide
  rw [this, BitVec.and_append, BitVec.and_append, BitVec.and_zero, BitVec.and_zero]
  congr 2
  exact BitVec.and_allOnes

theorem mask_x (f : BitVec 4) (x : RegIdx) (kk : Byte) : (f ++ x ++ kk : Word) &&& 0xF0FF#16 = f ++ 0#4 ++ kk := by
  have : (0xF0FF#16 : Word) = 0xF#4 ++ 0#4 ++ 0xFF#8 := by decide
  rw [this, BitVec.and_append, BitVec.and_append, BitVec.and_zero]
  congr 2
  · exact BitVec.and_allOnes
  · exact BitVec.and_allOnes

theorem mask_xy (f : BitVec 4) (x y : RegIdx) (n : BitVec 4) :
    (f ++ x ++ y ++ n : Word) &&& 0xF00F#16 = f ++ 0#4 ++ 0#4 ++ n := by
  have : (0xF00F#16 : Word) = 0xF#4 ++ 0#4 ++ 0#4 ++ 0xF#4 := by decide
  rw [this, BitVec.and_append, BitVec.and_append, BitVec.and_append, BitVec.and_zero, BitVec.and_zero]
  congr 3
  · exact BitVec.and_allOnes
  · exact BitVec.and_allOnes

theorem mask_xyn (f : BitVec 4) (x y : RegIdx) (n : BitVec 4) :
    (f ++ x ++ y ++ n : Word) &&& 0xF000#16 = f ++ 0#4 ++ 0#4 ++ 0#4 := by
  have : (0xF000#16 : Word) = 0xF#4 ++ 0#4 ++ 0#4 ++ 0#4 := by decide
  rw [this, BitVec.and_append, BitVec.and_append, BitVec.and_append, BitVec.and_zero, BitVec.and_zero, BitVec.and_zero]
  congr 3
  exact BitVec.and_allOnes

end Sys2Proof
end

