-- ==== Sys2Proof/Laws/Memory.lean ====
section
/-! SUPPORT. The laws of memory: read after write, blocks of bytes, and that every memory operation keeps the canonical form. -/

namespace Sys2Proof.Machine

@[simp] theorem Memory.read_erase (m : Memory) (a b : Nat) :
    (m.erase a).read b = if b = a then Memory.resetByte a else m.read b := by
  induction m with
  | nil => simp only [Memory.erase, List.filter_nil, Memory.read]; split <;> simp_all
  | cons c m ih =>
    obtain ⟨d, w⟩ := c
    simp only [Memory.erase, List.filter_cons] at ih ⊢
    by_cases hd : d = a
    · subst hd
      simp only [ne_eq, not_true_eq_false, decide_false, Bool.false_eq_true, ↓reduceIte, ih, Memory.read]
      by_cases hb : b = d <;> simp [hb]
    · simp only [ne_eq, hd, not_false_eq_true, decide_true, ↓reduceIte, Memory.read, ih]
      by_cases hb : b = d
      · simp [hb, hd]
      · simp [hb]

theorem Memory.read_insert (m : Memory) (a b : Nat) (v : Byte) (h : ∀ c ∈ m, c.1 ≠ a) :
    (m.insert a v).read b = if b = a then v else m.read b := by
  induction m with
  | nil => simp [Memory.insert, Memory.read]
  | cons c m ih =>
    obtain ⟨d, w⟩ := c
    have hd : d ≠ a := h (d, w) (by simp)
    have ih := ih fun c hc => h c (by simp [hc])
    simp only [Memory.insert]
    split
    · simp [Memory.read]
    · simp only [Memory.read, ih]
      by_cases hb : b = d
      · simp [hb, hd]
      · simp [hb]

/-- Read after write: the written byte there, every other byte as before. -/
@[simp] theorem Memory.read_write (m : Memory) (a b : Nat) (v : Byte) :
    (m.write a v).read b = if b = a then v else m.read b := by
  unfold Memory.write
  split
  · rename_i h; rw [Memory.read_erase, h]
  · rw [Memory.read_insert, Memory.read_erase]
    · split <;> simp_all
    · intro c hc
      simpa using (List.mem_filter.mp hc).2

/-- A block write: byte `k` of the block at `a + k` while that lies in memory, every other byte as before. -/
theorem Memory.read_writeBytes (m : Memory) (a b : Nat) (bs : List Byte) :
    (m.writeBytes a bs).read b =
      if h : a ≤ b ∧ b < a + bs.length ∧ b < 4096 then bs[b - a]'(by omega) else m.read b := by
  induction bs generalizing m a with
  | nil => simp [Memory.writeBytes]; omega
  | cons v bs ih =>
    simp only [Memory.writeBytes, ih, List.length_cons]
    by_cases h1 : a + 1 ≤ b ∧ b < a + 1 + bs.length ∧ b < 4096
    · rw [dif_pos h1, dif_pos (by omega), List.getElem_cons, dif_neg (by omega)]
      congr 1
    · rw [dif_neg h1]
      by_cases hb : b = a
      · subst hb
        by_cases hm : b < 4096
        · rw [dif_pos (by omega)]; simp [hm]
        · rw [dif_neg (by omega)]; simp [hm]
      · rw [dif_neg (by omega)]
        split <;> simp [hb]

/-- After a load of an image that fits: the image from 0x200, zero in the rest of program space, every other byte as before (R192). -/
theorem Memory.read_load (m : Memory) (bs : List Byte) (h : bs.length ≤ 3584) (a : Nat) :
    (m.load bs).read a =
      if h : 0x200 ≤ a ∧ a < 0x200 + bs.length then bs[a - 0x200]'(by omega)
      else if 0x200 ≤ a ∧ a < 4096 then 0 else m.read a := by
  have hlen : (List.replicate Config.progCap (0 : Byte)).length = 3584 := List.length_replicate
  unfold Memory.load
  rw [Memory.read_writeBytes]
  by_cases h1 : 0x200 ≤ a ∧ a < 0x200 + bs.length
  · rw [dif_pos (by simp only [progBase_eq]; omega), dif_pos h1]
  · rw [dif_neg (by simp only [progBase_eq]; omega), dif_neg h1, Memory.read_writeBytes]
    by_cases h2 : 0x200 ≤ a ∧ a < 4096
    · rw [dif_pos (by rw [hlen]; simp only [progBase_eq]; omega), if_pos h2, List.getElem_replicate]
    · rw [dif_neg (by rw [hlen]; simp only [progBase_eq]; omega), if_neg h2]

/-- An image fits when it has at most 3584 bytes (R193). -/
theorem imageFits_iff (bs : List Byte) : imageFits bs = true ↔ bs.length ≤ 3584 := by
  simp only [imageFits, progCap_eq, decide_eq_true_eq]

theorem Memory.wf_erase {m : Memory} (h : m.wf) (a : Nat) : (m.erase a).wf :=
  ⟨h.1.filter _, fun c hc => h.2 c (List.mem_of_mem_filter hc)⟩

theorem Memory.mem_insert {m : Memory} {a : Nat} {v : Byte} {c : Host.Cell} :
    c ∈ m.insert a v ↔ c = (a, v) ∨ c ∈ m := by
  induction m with
  | nil => simp [Memory.insert]
  | cons d m ih =>
    obtain ⟨d, w⟩ := d
    simp only [Memory.insert]
    split <;> simp [ih, or_left_comm]

theorem Memory.wf_insert {m : Memory} (h : m.wf) {a : Nat} {v : Byte} (ha : a < 4096)
    (hv : v ≠ Memory.resetByte a) (hne : ∀ c ∈ m, c.1 ≠ a) : (m.insert a v).wf := by
  refine ⟨?_, fun c hc => ?_⟩
  · obtain ⟨hp, -⟩ := h
    induction m with
    | nil => simp [Memory.insert]
    | cons d m ih =>
      obtain ⟨d, w⟩ := d
      rw [List.pairwise_cons] at hp
      have hda : d ≠ a := hne (d, w) (by simp)
      simp only [Memory.insert]
      split
      · rename_i hlt
        rw [List.pairwise_cons, List.pairwise_cons]
        refine ⟨fun c hc => ?_, hp⟩
        rcases List.mem_cons.mp hc with rfl | hc
        · exact hlt
        · exact Nat.lt_trans hlt (hp.1 c hc)
      · rename_i hlt
        rw [List.pairwise_cons]
        refine ⟨fun c hc => ?_, ih (fun c hc => hne c (by simp [hc])) hp.2⟩
        rcases Memory.mem_insert.mp hc with rfl | hc
        · simp only; omega
        · exact hp.1 c hc
  · rcases Memory.mem_insert.mp hc with rfl | hc
    · exact ⟨ha, hv⟩
    · exact h.2 c hc

/-- A write inside memory keeps the canonical form. -/
theorem Memory.wf_write {m : Memory} (h : m.wf) {a : Nat} (v : Byte) (ha : a < 4096) : (m.write a v).wf := by
  unfold Memory.write
  split
  · exact Memory.wf_erase h a
  · rename_i hv
    exact Memory.wf_insert (Memory.wf_erase h a) ha hv fun c hc => by simpa using (List.mem_filter.mp hc).2

/-- A block write keeps the canonical form. -/
theorem Memory.wf_writeBytes {m : Memory} (h : m.wf) (a : Nat) (bs : List Byte) : (m.writeBytes a bs).wf := by
  induction bs generalizing m a with
  | nil => exact h
  | cons v bs ih =>
    simp only [Memory.writeBytes]
    split
    · rename_i ha; exact ih (Memory.wf_write h v ha) _
    · exact ih h _

/-- A load keeps the canonical form. -/
theorem Memory.wf_load {m : Memory} (h : m.wf) (bs : List Byte) : (m.load bs).wf :=
  Memory.wf_writeBytes (Memory.wf_writeBytes h _ _) _ _

/-- The memory built from any function of the address is in canonical form. -/
theorem Memory.wf_ofBytes (f : Nat → Byte) : (Memory.ofBytes f).wf := by
  unfold Memory.ofBytes
  refine ⟨?_, fun c hc => ?_⟩
  · refine List.Pairwise.filterMap _ (fun a b hab c hc d hd => ?_) List.pairwise_lt_range
    split at hc <;> split at hd <;> simp_all
    rw [← hc, ← hd]; exact hab
  · obtain ⟨a, ha, hac⟩ := List.mem_filterMap.mp hc
    split at hac
    · simp at hac
    · rename_i hf
      obtain rfl : (a, f a) = c := by simpa using hac
      exact ⟨List.mem_range.mp ha, hf⟩

/-- The empty list, the reset memory, is in canonical form. -/
theorem Memory.wf_nil : Memory.wf [] := ⟨List.Pairwise.nil, by simp⟩

theorem Memory.read_eq_resetByte {m : Memory} {a : Nat} (h : ∀ c ∈ m, c.1 ≠ a) : m.read a = Memory.resetByte a := by
  induction m with
  | nil => rfl
  | cons d m ih =>
    obtain ⟨d, w⟩ := d
    have hd : d ≠ a := h (d, w) (by simp)
    simp only [Memory.read, Ne.symm hd, ↓reduceIte]
    exact ih fun c hc => h c (by simp [hc])

/-- Equal memories are equal data: two lists in canonical form that read the same everywhere are the same list. -/
theorem Memory.eq_of_read_eq {m n : Memory} (hm : m.wf) (hn : n.wf) (h : ∀ a, m.read a = n.read a) : m = n := by
  have key : ∀ {l k : Memory}, l.wf → k.wf → (∀ a, l.read a = k.read a) → ∀ c ∈ l, c ∈ k := by
    intro l k hl hk hr c hc
    have hlc : l.read c.1 = c.2 := by
      obtain ⟨hp, -⟩ := hl
      clear hr
      induction l with
      | nil => simp at hc
      | cons d l ih =>
        obtain ⟨d, w⟩ := d
        rw [List.pairwise_cons] at hp
        rcases List.mem_cons.mp hc with rfl | hc
        · simp [Memory.read]
        · have : c.1 ≠ d := Nat.ne_of_gt (hp.1 c hc)
          simp [Memory.read, this, ih hc hp.2]
    by_contra hnot
    have hk' : k.read c.1 = c.2 := by rw [← hr, hlc]
    by_cases hex : ∀ e ∈ k, e.1 ≠ c.1
    · exact (hl.2 c hc).2 (by rw [← hk', Memory.read_eq_resetByte hex])
    · push Not at hex
      obtain ⟨e, he, hec⟩ := hex
      have hke : k.read e.1 = e.2 := by
        obtain ⟨hp, -⟩ := hk
        clear hr hk' hnot
        induction k with
        | nil => simp at he
        | cons d k ih =>
          obtain ⟨d, w⟩ := d
          rw [List.pairwise_cons] at hp
          rcases List.mem_cons.mp he with rfl | he
          · simp [Memory.read]
          · have : e.1 ≠ d := Nat.ne_of_gt (hp.1 e he)
            simp [Memory.read, this, ih he hp.2]
      exact hnot (by
        have : e = c := Prod.ext hec (by rw [← hke, hec, hk'])
        rwa [← this])
  exact List.Perm.eq_of_pairwise (le := fun c d : Host.Cell => c.1 < d.1)
    (fun a b _ _ hab hba => absurd hab (Nat.lt_asymm hba)) hm.1 hn.1
    ((List.perm_ext_iff_of_nodup
      (hm.1.imp fun h => by rintro rfl; exact Nat.lt_irrefl _ h)
      (hn.1.imp fun h => by rintro rfl; exact Nat.lt_irrefl _ h)).mpr
      fun c => ⟨key hm hn h c, key hn hm (fun a => (h a).symm) c⟩)

end Sys2Proof.Machine
end

