-- ==== Sys2Proof/Laws/Display.lean ====
section
/-! SUPPORT. The laws of drawing: toggling a list of distinct cells, and the cells a sprite covers (R141). -/

namespace Sys2Proof.Machine

/-- Toggling flips its own cell and no other. -/
@[simp] theorem cellOf_toggle (fb : Framebuffer) (rc : Fin 32 × Fin 64) (h : Bool) (r : Fin 32) (c : Fin 64) :
    cellOf (togglePixel (fb, h) rc).1 r c = if (r, c) = rc then !cellOf fb r c else cellOf fb r c := by
  obtain ⟨r', c'⟩ := rc
  simp only [togglePixel, cellOf, Prod.mk.injEq, Fin.getElem_fin, Vector.getElem_set]
  by_cases hr : r'.val = r.val
  · by_cases hc : c'.val = c.val
    · have hr' := Fin.ext hr; have hc' := Fin.ext hc
      subst hr' hc'; simp
    · have : ¬ c = c' := fun e => hc (by rw [e])
      simp [hr, hc, this]
  · have : ¬ r = r' := fun e => hr (by rw [e])
    simp [hr, this]

/-- Toggling collides exactly when the cell was on. -/
@[simp] theorem togglePixel_snd (fb : Framebuffer) (rc : Fin 32 × Fin 64) (h : Bool) :
    (togglePixel (fb, h) rc).2 = (h || cellOf fb rc.1 rc.2) := rfl

/-- Toggling distinct cells flips exactly those. -/
theorem cellOf_foldl_toggle (l : List (Fin 32 × Fin 64)) (hl : l.Nodup) (acc : Framebuffer × Bool)
    (r : Fin 32) (c : Fin 64) :
    cellOf (l.foldl togglePixel acc).1 r c = if (r, c) ∈ l then !cellOf acc.1 r c else cellOf acc.1 r c := by
  induction l generalizing acc with
  | nil => simp
  | cons p l ih =>
    obtain ⟨fb, h⟩ := acc
    rw [List.nodup_cons] at hl
    rw [List.foldl_cons, ih hl.2, cellOf_toggle]
    by_cases hp : (r, c) = p
    · subst hp; simp [hl.1]
    · simp [hp]

/-- Toggling distinct cells collides exactly when one of them was on before. -/
theorem foldl_toggle_snd (l : List (Fin 32 × Fin 64)) (hl : l.Nodup) (acc : Framebuffer × Bool) :
    (l.foldl togglePixel acc).2 = (acc.2 || l.any fun p => cellOf acc.1 p.1 p.2) := by
  induction l generalizing acc with
  | nil => simp
  | cons p l ih =>
    obtain ⟨fb, h⟩ := acc
    rw [List.nodup_cons] at hl
    rw [List.foldl_cons, ih hl.2, togglePixel_snd, List.any_cons, Bool.or_assoc]
    congr 2
    rw [Bool.eq_iff_iff, List.any_eq_true, List.any_eq_true]
    refine exists_congr fun q => and_congr_right fun hq => ?_
    rw [cellOf_toggle, if_neg (fun e => hl.1 (by rwa [← e]))]

/-- The cells of a sprite row. -/
theorem mem_rowPixels {vx vy : Byte} {row : Nat} {b : Byte} {r : Fin 32} {c : Fin 64} :
    (r, c) ∈ rowPixels vx vy row b ↔
      ∃ k < 8, b.getLsbD (7 - k) = true ∧ r.val = (vy.toNat + row) % 32 ∧ c.val = (vx.toNat + k) % 64 := by
  simp only [rowPixels, List.mem_map, List.mem_filter, List.mem_range, Prod.mk.injEq, Fin.ext_iff, Fin.val_ofNat]
  constructor
  · rintro ⟨k, ⟨hk, hb⟩, hr, hc⟩; exact ⟨k, hk, hb, hr.symm, hc.symm⟩
  · rintro ⟨k, hk, hb, hr, hc⟩; exact ⟨k, ⟨hk, hb⟩, hr.symm, hc.symm⟩

/-- The list of cells a sprite toggles is the cells it covers. -/
theorem mem_spritePixels (s : State) (vx vy : Byte) (n : BitVec 4) (r : Fin 32) (c : Fin 64) :
    (r, c) ∈ s.spritePixels vx vy n.toNat ↔ s.spriteCovers vx vy n r c := by
  simp only [State.spritePixels, List.mem_flatMap, List.mem_range, mem_rowPixels, State.spriteCovers, State.ea_eq]

/-- The cells of one row are pairwise distinct. -/
theorem nodup_rowPixels (vx vy : Byte) (row : Nat) (b : Byte) : (rowPixels vx vy row b).Nodup := by
  unfold rowPixels
  refine List.Nodup.map_on ?_ (List.nodup_range.filter _)
  intro k hk j hj h
  simp only [List.mem_filter, List.mem_range, Prod.mk.injEq, Fin.ext_iff, Fin.val_ofNat] at hk hj h
  omega

/-- The cells one sprite toggles are pairwise distinct (R141 (e)). -/
theorem nodup_spritePixels (s : State) (vx vy : Byte) (n : BitVec 4) : (s.spritePixels vx vy n.toNat).Nodup := by
  unfold State.spritePixels
  rw [List.nodup_flatMap]
  refine ⟨fun row _ => nodup_rowPixels .., ?_⟩
  refine List.Nodup.pairwise_of_forall_ne List.nodup_range ?_
  intro i hi j hj hij
  rw [List.mem_range] at hi hj
  have := n.isLt
  rintro ⟨r, c⟩ h1 h2
  rw [mem_rowPixels] at h1 h2
  obtain ⟨_, _, _, h1, _⟩ := h1
  obtain ⟨_, _, _, h2, _⟩ := h2
  omega
end Sys2Proof.Machine
end

