-- ==== Sys2Proof/Laws/Ops.lean ====
section
/-! SUPPORT. The laws of the shared operations: block transfers, the lowest key, and the entry of a fatal error. -/

namespace Sys2Proof.Machine

/-- A flag is 0 or 1 (R11). -/
theorem flagByte_eq (b : Bool) : flagByte b = 0 ∨ flagByte b = 1 := by cases b <;> simp [flagByte]

/-! ### Block transfers -/

/-- After the bytes of a block are stored at `I`: byte `k` at `I + k`, every other byte as before. -/
theorem State.readByte_storeAtI (s : State) (bs : List Byte) (b : Nat) (hfit : s.i.toNat + bs.length ≤ 4096) :
    (s.storeAtI bs).readByte b =
      if h : s.i.toNat ≤ b ∧ b < s.i.toNat + bs.length then bs[b - s.i.toNat]'(by omega) else s.readByte b := by
  simp only [State.readByte, State.storeAtI_mem, State.ea_eq, Nat.add_zero, Memory.read_writeBytes]
  by_cases h : s.i.toNat ≤ b ∧ b < s.i.toNat + bs.length
  · rw [dif_pos h, dif_pos ⟨h.1, h.2, by omega⟩]
  · rw [dif_neg h, dif_neg (fun h' => h ⟨h'.1, h'.2.1⟩)]

/-- Byte `k` of the block stored at `I` is at `I + k`. -/
theorem State.readByte_storeAtI_at (s : State) (bs : List Byte) (k : Nat) (hk : k < bs.length)
    (hfit : s.i.toNat + bs.length ≤ 4096) : (s.storeAtI bs).readByte (s.i.toNat + k) = bs[k] := by
  rw [s.readByte_storeAtI bs _ hfit, dif_pos (by omega)]
  congr 1; omega

/-- A byte outside the block stored at `I` is as before. -/
theorem State.readByte_storeAtI_outside (s : State) (bs : List Byte) (b : Nat)
    (hfit : s.i.toNat + bs.length ≤ 4096) (hb : b < s.i.toNat ∨ s.i.toNat + bs.length ≤ b) :
    (s.storeAtI bs).readByte b = s.readByte b := by
  rw [s.readByte_storeAtI bs _ hfit, dif_neg (by omega)]

/-- Loading `k` registers from `I` changes only the registers. -/
theorem State.loadFromI_eq (s : State) (k : Nat) : s.loadFromI k = { s with v := (s.loadFromI k).v } := by
  induction k with
  | zero => rfl
  | succ k ih => simp only [State.loadFromI]; rw [ih]; rfl

/-- After `k` registers are loaded from `I`: register `q < k` holds the byte at `I + q`, the others are as before. -/
theorem State.reg_loadFromI (s : State) (k : Nat) (hk : k ≤ 16) (q : RegIdx) :
    (s.loadFromI k).reg q = if q.toNat < k then s.readByte (s.i.toNat + q.toNat) else s.reg q := by
  induction k with
  | zero => simp [State.loadFromI]
  | succ k ih =>
    rw [State.loadFromI, State.reg_setReg, ih (by omega), State.ea_eq]
    have hq : q = BitVec.ofNat 4 k ↔ q.toNat = k := by
      rw [← BitVec.toNat_inj, BitVec.toNat_ofNat, Nat.mod_eq_of_lt (by omega)]
    by_cases h : q.toNat = k
    · rw [if_pos (hq.mpr h), if_pos (by omega), h]
    · rw [if_neg (fun e => h (hq.mp e))]
      split <;> split <;> first | rfl | omega

@[simp] theorem State.length_regsUpTo (s : State) (x : RegIdx) : (s.regsUpTo x).length = x.toNat + 1 := by
  simp [State.regsUpTo]

theorem State.getElem_regsUpTo (s : State) (x k : RegIdx) (h : k.toNat < (s.regsUpTo x).length) :
    (s.regsUpTo x)[k.toNat] = s.reg k := by
  simp [State.regsUpTo]

/-! ### The lowest key (R153) -/

theorem State.lowestKey_eq_none (s : State) : s.lowestKey = none ↔ ∀ k, s.keyDown k = false := by
  simp only [State.lowestKey, List.find?_eq_none, allKeys, List.mem_map, List.mem_range]
  constructor
  · intro h k
    simpa using h k ⟨k.toNat, k.isLt, by simp⟩
  · rintro h _ ⟨k, -, rfl⟩
    simp [h]

theorem State.lowestKey_eq_some (s : State) (k : KeyIdx) :
    s.lowestKey = some k ↔ s.keyDown k = true ∧ ∀ j, j.toNat < k.toNat → s.keyDown j = false := by
  have hat : ∀ i : Nat, (h : i < 16) → allKeys[i]? = some (BitVec.ofNat 4 i) := by
    intro i h; simp [allKeys, h]
  have hlen : allKeys.length = 16 := by simp [allKeys]
  rw [State.lowestKey, List.find?_eq_some_iff_getElem]
  refine and_congr_right fun _ => ⟨?_, fun h => ?_⟩
  · rintro ⟨i, hi, he, hlt⟩ j hj
    have hi16 : i < 16 := by rw [← hlen]; exact hi
    have hk : k.toNat = i := by
      have := hat i hi16
      rw [List.getElem?_eq_getElem hi, he, Option.some.injEq] at this
      rw [this, BitVec.toNat_ofNat, Nat.mod_eq_of_lt hi16]
    have := hlt j.toNat (by omega)
    have hj' := hat j.toNat j.isLt
    rw [List.getElem?_eq_getElem (by rw [hlen]; exact j.isLt), Option.some.injEq] at hj'
    rw [hj'] at this
    simpa using this
  · refine ⟨k.toNat, by rw [hlen]; exact k.isLt, ?_, fun j hj => ?_⟩
    · have := hat k.toNat k.isLt
      rw [List.getElem?_eq_getElem (by rw [hlen]; exact k.isLt), Option.some.injEq] at this
      rw [this]; simp
    · have hj16 : j < 16 := by have := k.isLt; omega
      have := hat j hj16
      rw [List.getElem?_eq_getElem (by rw [hlen]; exact hj16), Option.some.injEq] at this
      rw [this, h _ (by rw [BitVec.toNat_ofNat, Nat.mod_eq_of_lt hj16]; exact hj)]
      simp

/-! ### Fatal errors (R167) -/

/-- Everything the entry of a fatal error fixes: the latch, the record, and what `afterFatal` keeps. -/
theorem raise_eq (kind : ErrorKind) (addr : Word) (opcode : Option Word) (s : State) :
    raise kind addr opcode s = .next { s.afterFatal kind with halted := true, err := some ⟨kind, addr, opcode⟩ } := rfl

theorem raise_failsWith (kind : ErrorKind) (addr : Word) (opcode : Option Word) (s : State) :
    failsWith (raise kind addr opcode s) kind addr opcode := ⟨_, rfl, rfl, rfl⟩

theorem raiseBy_failsWith (i : Instr) (kind : ErrorKind) (s : State) :
    failsWith (raiseBy i kind s) kind (s.pc - 2) (some (encode i)) := raise_failsWith ..

/-- A fatal error halts: it never completes. -/
theorem raise_not_completes (kind : ErrorKind) (addr : Word) (opcode : Option Word) (s t : State) :
    ¬ completes (raise kind addr opcode s) t := by
  rintro ⟨h, ht⟩
  rw [raise_eq, Host.Outcome.next.injEq] at h
  subst h
  simp at ht

theorem raiseBy_not_completes (i : Instr) (kind : ErrorKind) (s t : State) : ¬ completes (raiseBy i kind s) t :=
  raise_not_completes _ _ _ _ _

theorem State.unspecified_mem (s : State) : s.unspecified.mem = Memory.ofBytes (Config.afterError s.draws).mem := by
  simp only [State.unspecified]

theorem State.unspecified_sp (s : State) : s.unspecified.sp = (Config.afterError s.draws).sp.val := by
  simp only [State.unspecified]

/-- The state a fatal error leaves keeps memory canonical and the depth in bounds. -/
theorem State.afterFatal_bounds (s : State) (kind : ErrorKind) (hm : s.mem.wf) (hd : s.sp ≤ 12) :
    (s.afterFatal kind).mem.wf ∧ (s.afterFatal kind).sp ≤ 12 := by
  have hu : s.unspecified.mem.wf ∧ s.unspecified.sp ≤ 12 :=
    ⟨by rw [State.unspecified_mem]; exact Memory.wf_ofBytes _, by rw [State.unspecified_sp]; exact Nat.le_of_lt_succ (Config.afterError s.draws).sp.isLt⟩
  cases kind <;> simp only [State.afterFatal] <;> first | exact ⟨hm, hd⟩ | exact hu | exact ⟨hu.1, hd⟩

end Sys2Proof.Machine
end

