-- ==== Sys2Proof/Laws/PerInstr.lean ====
section
/-! SUPPORT. Per instruction: its encoding is selected by its own row of the opcode map (R64). -/

namespace Sys2Proof.Laws.EncodesIntoItsRow

/-- The row of R64 with the instruction's name selects the instruction's word. -/
def Statement (i : Instr) : Prop := ∃ row ∈ opcodeRows, row.mnemonic = i.mnemonic ∧ row.selects (encode i) = true

theorem of_row {i : Instr} (row : OpcodeRow) (hmem : row ∈ opcodeRows) (hname : row.mnemonic = i.mnemonic)
    (hsel : encode i &&& row.mask = row.matchVal) : Statement i :=
  ⟨row, hmem, hname, by simpa [OpcodeRow.selects] using hsel⟩

theorem clearDisplay : Statement .clearDisplay :=
  of_row ⟨"clear-display", 0x00E0, 0xFFFF⟩ (by decide) rfl (by decide)

theorem ret : Statement .ret :=
  of_row ⟨"return", 0x00EE, 0xFFFF⟩ (by decide) rfl (by decide)

theorem jump (nnn : Addr) : Statement (.jump nnn) :=
  of_row ⟨"jump", 0x1000, 0xF000⟩ (by decide) rfl (mask_nnn _ _)

theorem call (nnn : Addr) : Statement (.call nnn) :=
  of_row ⟨"call", 0x2000, 0xF000⟩ (by decide) rfl (mask_nnn _ _)

theorem skipEqImm (x : RegIdx) (kk : Byte) : Statement (.skipEqImm x kk) :=
  of_row ⟨"skip-eq-imm", 0x3000, 0xF000⟩ (by decide) rfl (mask_xkk _ _ _)

theorem skipNeImm (x : RegIdx) (kk : Byte) : Statement (.skipNeImm x kk) :=
  of_row ⟨"skip-ne-imm", 0x4000, 0xF000⟩ (by decide) rfl (mask_xkk _ _ _)

theorem skipEqReg (x y : RegIdx) : Statement (.skipEqReg x y) :=
  of_row ⟨"skip-eq-reg", 0x5000, 0xF00F⟩ (by decide) rfl (mask_xy _ _ _ _)

theorem setImm (x : RegIdx) (kk : Byte) : Statement (.setImm x kk) :=
  of_row ⟨"set-imm", 0x6000, 0xF000⟩ (by decide) rfl (mask_xkk _ _ _)

theorem addImm (x : RegIdx) (kk : Byte) : Statement (.addImm x kk) :=
  of_row ⟨"add-imm", 0x7000, 0xF000⟩ (by decide) rfl (mask_xkk _ _ _)

theorem setReg (x y : RegIdx) : Statement (.setReg x y) :=
  of_row ⟨"set-reg", 0x8000, 0xF00F⟩ (by decide) rfl (mask_xy _ _ _ _)

theorem orReg (x y : RegIdx) : Statement (.orReg x y) :=
  of_row ⟨"or-reg", 0x8001, 0xF00F⟩ (by decide) rfl (mask_xy _ _ _ _)

theorem andReg (x y : RegIdx) : Statement (.andReg x y) :=
  of_row ⟨"and-reg", 0x8002, 0xF00F⟩ (by decide) rfl (mask_xy _ _ _ _)

theorem xorReg (x y : RegIdx) : Statement (.xorReg x y) :=
  of_row ⟨"xor-reg", 0x8003, 0xF00F⟩ (by decide) rfl (mask_xy _ _ _ _)

theorem addReg (x y : RegIdx) : Statement (.addReg x y) :=
  of_row ⟨"add-reg", 0x8004, 0xF00F⟩ (by decide) rfl (mask_xy _ _ _ _)

theorem subReg (x y : RegIdx) : Statement (.subReg x y) :=
  of_row ⟨"sub-reg", 0x8005, 0xF00F⟩ (by decide) rfl (mask_xy _ _ _ _)

theorem shiftRight (x y : RegIdx) : Statement (.shiftRight x y) :=
  of_row ⟨"shift-right", 0x8006, 0xF00F⟩ (by decide) rfl (mask_xy _ _ _ _)

theorem subRegReverse (x y : RegIdx) : Statement (.subRegReverse x y) :=
  of_row ⟨"sub-reg-reverse", 0x8007, 0xF00F⟩ (by decide) rfl (mask_xy _ _ _ _)

theorem shiftLeft (x y : RegIdx) : Statement (.shiftLeft x y) :=
  of_row ⟨"shift-left", 0x800E, 0xF00F⟩ (by decide) rfl (mask_xy _ _ _ _)

theorem skipNeReg (x y : RegIdx) : Statement (.skipNeReg x y) :=
  of_row ⟨"skip-ne-reg", 0x9000, 0xF00F⟩ (by decide) rfl (mask_xy _ _ _ _)

theorem setIndex (nnn : Addr) : Statement (.setIndex nnn) :=
  of_row ⟨"set-index", 0xA000, 0xF000⟩ (by decide) rfl (mask_nnn _ _)

theorem jumpWithOffset (nnn : Addr) : Statement (.jumpWithOffset nnn) :=
  of_row ⟨"jump-with-offset", 0xB000, 0xF000⟩ (by decide) rfl (mask_nnn _ _)

theorem randomAnd (x : RegIdx) (kk : Byte) : Statement (.randomAnd x kk) :=
  of_row ⟨"random-and", 0xC000, 0xF000⟩ (by decide) rfl (mask_xkk _ _ _)

theorem drawSprite (x y : RegIdx) (n : BitVec 4) : Statement (.drawSprite x y n) :=
  of_row ⟨"draw-sprite", 0xD000, 0xF000⟩ (by decide) rfl (mask_xyn _ _ _ _)

theorem skipIfKeyPressed (x : RegIdx) : Statement (.skipIfKeyPressed x) :=
  of_row ⟨"skip-if-key-pressed", 0xE09E, 0xF0FF⟩ (by decide) rfl (mask_x _ _ _)

theorem skipIfKeyNotPressed (x : RegIdx) : Statement (.skipIfKeyNotPressed x) :=
  of_row ⟨"skip-if-key-not-pressed", 0xE0A1, 0xF0FF⟩ (by decide) rfl (mask_x _ _ _)

theorem getDelayTimer (x : RegIdx) : Statement (.getDelayTimer x) :=
  of_row ⟨"get-delay-timer", 0xF007, 0xF0FF⟩ (by decide) rfl (mask_x _ _ _)

theorem waitForKey (x : RegIdx) : Statement (.waitForKey x) :=
  of_row ⟨"wait-for-key", 0xF00A, 0xF0FF⟩ (by decide) rfl (mask_x _ _ _)

theorem setDelayTimer (x : RegIdx) : Statement (.setDelayTimer x) :=
  of_row ⟨"set-delay-timer", 0xF015, 0xF0FF⟩ (by decide) rfl (mask_x _ _ _)

theorem setSoundTimer (x : RegIdx) : Statement (.setSoundTimer x) :=
  of_row ⟨"set-sound-timer", 0xF018, 0xF0FF⟩ (by decide) rfl (mask_x _ _ _)

theorem addToIndex (x : RegIdx) : Statement (.addToIndex x) :=
  of_row ⟨"add-to-index", 0xF01E, 0xF0FF⟩ (by decide) rfl (mask_x _ _ _)

theorem setIndexToGlyph (x : RegIdx) : Statement (.setIndexToGlyph x) :=
  of_row ⟨"set-index-to-glyph", 0xF029, 0xF0FF⟩ (by decide) rfl (mask_x _ _ _)

theorem storeBcd (x : RegIdx) : Statement (.storeBcd x) :=
  of_row ⟨"store-bcd", 0xF033, 0xF0FF⟩ (by decide) rfl (mask_x _ _ _)

theorem storeRegisters (x : RegIdx) : Statement (.storeRegisters x) :=
  of_row ⟨"store-registers", 0xF055, 0xF0FF⟩ (by decide) rfl (mask_x _ _ _)

theorem loadRegisters (x : RegIdx) : Statement (.loadRegisters x) :=
  of_row ⟨"load-registers", 0xF065, 0xF0FF⟩ (by decide) rfl (mask_x _ _ _)

/-- Every instruction's word is selected by its own row. -/
theorem all (i : Instr) : Statement i := by
  cases i with
  | clearDisplay => exact clearDisplay
  | ret => exact ret
  | jump nnn => exact jump nnn
  | call nnn => exact call nnn
  | skipEqImm x kk => exact skipEqImm x kk
  | skipNeImm x kk => exact skipNeImm x kk
  | skipEqReg x y => exact skipEqReg x y
  | setImm x kk => exact setImm x kk
  | addImm x kk => exact addImm x kk
  | setReg x y => exact setReg x y
  | orReg x y => exact orReg x y
  | andReg x y => exact andReg x y
  | xorReg x y => exact xorReg x y
  | addReg x y => exact addReg x y
  | subReg x y => exact subReg x y
  | shiftRight x y => exact shiftRight x y
  | subRegReverse x y => exact subRegReverse x y
  | shiftLeft x y => exact shiftLeft x y
  | skipNeReg x y => exact skipNeReg x y
  | setIndex nnn => exact setIndex nnn
  | jumpWithOffset nnn => exact jumpWithOffset nnn
  | randomAnd x kk => exact randomAnd x kk
  | drawSprite x y n => exact drawSprite x y n
  | skipIfKeyPressed x => exact skipIfKeyPressed x
  | skipIfKeyNotPressed x => exact skipIfKeyNotPressed x
  | getDelayTimer x => exact getDelayTimer x
  | waitForKey x => exact waitForKey x
  | setDelayTimer x => exact setDelayTimer x
  | setSoundTimer x => exact setSoundTimer x
  | addToIndex x => exact addToIndex x
  | setIndexToGlyph x => exact setIndexToGlyph x
  | storeBcd x => exact storeBcd x
  | storeRegisters x => exact storeRegisters x
  | loadRegisters x => exact loadRegisters x

end Sys2Proof.Laws.EncodesIntoItsRow
end

