-- ==== Sys2Proof/Laws/Step.lean ====
section
/-! SUPPORT. What a step, an instruction and an execution can do, each said once. -/

namespace Sys2Proof.Machine

/-- A step with a next state, by the order of its checks (R84): past the fetch bound, decoded and executed, or not decoded. -/
theorem step_cases {s t : State} (h : step s = .next t) :
    s.halted = false ∧
      ((¬ s.canFetch ∧ raise .pcOutOfBounds s.pc none s = .next t) ∨
        (s.canFetch ∧ ∃ i, decodeWord s.fetch16 = .ok i ∧ exec i s.advancePc = .next t) ∨
        (s.canFetch ∧ ∃ e, decodeWord s.fetch16 = .error e ∧
          raise .unknownOpcode s.pc (some s.fetch16) s.advancePc = .next t)) := by
  unfold step at h
  split at h
  · cases h
  · rename_i hh
    refine ⟨by simpa using hh, ?_⟩
    split at h
    · rename_i hc
      split at h
      · rename_i i hi; exact .inr (.inl ⟨hc, i, hi, h⟩)
      · rename_i e he; exact .inr (.inr ⟨hc, e, he, h⟩)
    · rename_i hc; exact .inl ⟨hc, h⟩

theorem step_halted {s : State} (h : s.halted = true) : step s = .fault (.halted s.err) := by simp [step, h]

theorem step_decoded {s : State} {i : Instr} (h : s.halted = false) (hc : s.canFetch)
    (hi : decodeWord s.fetch16 = .ok i) : step s = exec i s.advancePc := by
  unfold step
  rw [if_neg (by simp [h]), if_pos hc, hi]

theorem step_undecoded {s : State} {e : DecodeError} (h : s.halted = false) (hc : s.canFetch)
    (he : decodeWord s.fetch16 = .error e) :
    step s = raise .unknownOpcode s.pc (some s.fetch16) s.advancePc := by
  unfold step
  rw [if_neg (by simp [h]), if_pos hc, he]

theorem step_outOfBounds {s : State} (h : s.halted = false) (hc : ¬ s.canFetch) :
    step s = raise .pcOutOfBounds s.pc none s := by
  unfold step
  rw [if_neg (by simp [h]), if_neg hc]

/-- An instruction whose check passes or fails: it acts, or it raises its one error. -/
theorem ite_raiseBy_cases {i : Instr} {kind : ErrorKind} {s t u : State} {p : Prop} [Decidable p]
    (h : (if p then Host.Outcome.next u else raiseBy i kind s) = .next t) :
    (p ∧ t = u) ∨ (¬ p ∧ raiseBy i kind s = .next t) := by
  split at h
  · rename_i hp; exact .inl ⟨hp, by simpa using h.symm⟩
  · rename_i hp; exact .inr ⟨hp, h⟩

/-- An instruction that completes passed its check. -/
theorem ite_raiseBy_completes {i : Instr} {kind : ErrorKind} {s t u : State} {p : Prop} [Decidable p]
    (h : completes (if p then Host.Outcome.next u else raiseBy i kind s) t) : p ∧ t = u := by
  rcases ite_raiseBy_cases h.1 with hp | ⟨-, h'⟩
  · exact hp
  · exact (raiseBy_not_completes _ _ _ _ ⟨h', h.2⟩).elim

/-- The operation `step` of the host when the step has a next state. -/
theorem perform_step_next {s t : State} (h : step s = .next t) :
    perform .step s = .next (if t.halted then .fatal t.err else .success, t) := by
  simp only [perform, performStep, h]

theorem perform_step_halted {s : State} (h : s.halted = true) : perform .step s = .next (.fatal s.err, s) := by
  simp only [perform, performStep, step_halted h]

/-- An execution, by its first operation. -/
theorem performAll_cons_next {o : Operation} {os : List Operation} {s t : State} {r : Reply}
    (h : perform o s = .next (r, t)) : performAll (o :: os) s = performAll os t := by
  simp only [performAll, h]

theorem performAll_append {os ps : List Operation} {s t : State} (h : performAll os s = .next t) :
    performAll (os ++ ps) s = performAll ps t := by
  induction os generalizing s with
  | nil => simp only [performAll, Host.Outcome.next.injEq] at h; rw [h]; rfl
  | cons o os ih =>
    rw [List.cons_append]
    simp only [performAll] at h ⊢
    split at h
    · exact ih h
    · cases h
    · cases h

/-- Package of the induction over executions: what every operation keeps, every execution keeps. -/
theorem performAll_keeps {P : State → Prop}
    (hstep : ∀ o s t r, P s → perform o s = .next (r, t) → P t) :
    ∀ os s t, P s → performAll os s = .next t → P t := by
  intro os
  induction os with
  | nil => intro s t hs h; simp only [performAll, Host.Outcome.next.injEq] at h; rwa [← h]
  | cons o os ih =>
    intro s t hs h
    simp only [performAll] at h
    split at h
    · rename_i r u hu; exact ih u t (hstep o s u r hs hu) h
    · cases h
    · cases h

end Sys2Proof.Machine
end

