-- ==== Sys2Proof/Tests/Slice0.lean ====
section
/-! SUPPORT. The model's own tests: well-formedness, decoding of words written out from spec/opcode_table.json, single steps with the expected values of spec/95_test_vectors.md, and a witness for the hypotheses of every obligation. -/

namespace Sys2Proof.Tests

open Sys2Proof Sys2Proof.Machine

/-- The reset state with a word at 0x200. -/
def loaded (op : Word) : State := State.reset.withFetchWord 16 op.toNat

/-- General registers set. -/
def regs (l : List (RegIdx × Byte)) (s : State) : State := l.foldl (fun s p => s.setReg p.1 p.2) s

/-- Bytes of memory set, from address `a` on. -/
def bytes (a : Nat) (l : List Byte) (s : State) : State := { s with mem := s.mem.writeBytes a l }

/-- What is seen of the next state, if there is one. -/
def seen {α : Type} (o : StepOutcome) (f : State → α) : Option α :=
  match o with
  | .next t => some (f t)
  | .fault _ => none
  | .refused _ => none

/-- The halt latch and the error record. -/
def errorOf (o : StepOutcome) : Option (Bool × Option ErrorRecord) := seen o fun t => (t.halted, t.err)

/-- The cells that are on in some columns of some rows. -/
def onCells (s : State) (rows : List (Fin 32)) (cols : List (Fin 64)) : List (Nat × Nat) :=
  rows.flatMap fun r => (cols.filter fun c => s.cell r c).map fun c => (r.val, c.val)

/-! ### Well-formedness: illegal words and oversized images are refused (R66: T7 to T10; R193: S3) -/

theorem test_family0_illegal : ([0x0000, 0x0123, 0x00E1, 0x00EF, 0x00FE] : List Word).all (fun w => !legalWord w) = true := by decide
theorem test_family5_illegal : ([0x5001, 0x5121, 0x512F] : List Word).all (fun w => !legalWord w) = true := by decide
theorem test_family8_illegal : ([0x8128, 0x8129, 0x812F] : List Word).all (fun w => !legalWord w) = true := by decide
theorem test_family9_illegal : ([0x9001, 0x9121] : List Word).all (fun w => !legalWord w) = true := by decide
theorem test_familyE_illegal : ([0xE09D, 0xE19F, 0xE1A0] : List Word).all (fun w => !legalWord w) = true := by decide
theorem test_familyF_illegal : ([0xF000, 0xF130, 0xF154, 0xF175, 0xF1FF] : List Word).all (fun w => !legalWord w) = true := by decide
theorem test_illegal_words_do_not_decode :
    ([0x0000, 0x00FE, 0x512F, 0x812F, 0x9121, 0xE1A0, 0xF1FF] : List Word).all
      (fun w => decide (decodeWord w = .error (.unknownOpcode w))) = true := by decide
theorem test_image_of_3584_fits : imageFits (List.replicate 3584 0) = true := by
  unfold imageFits; rw [List.length_replicate]; decide
theorem test_image_of_3585_does_not_fit : imageFits (List.replicate 3585 0) = false := by
  unfold imageFits; rw [List.length_replicate]; decide
theorem test_one_byte_is_truncated : decodeBytes [0x12] = .error .truncated := by decide

/-! ### Decoding: one word of each row, written out bit by bit from the table's encoding -/

theorem test_decode_clearDisplay : decodeTableWord 16 0b0000000011100000 = some .clearDisplay := by decide
theorem test_decode_ret : decodeTableWord 16 0b0000000011101110 = some .ret := by decide
theorem test_decode_jump : decodeTableWord 16 0b0001101010111100 = some (.jump 0xABC) := by decide
theorem test_decode_call : decodeTableWord 16 0b0010010000000001 = some (.call 0x401) := by decide
theorem test_decode_skipEqImm : decodeTableWord 16 0b0011001101000010 = some (.skipEqImm 3 0x42) := by decide
theorem test_decode_skipNeImm : decodeTableWord 16 0b0100101111010010 = some (.skipNeImm 0xB 0xD2) := by decide
theorem test_decode_skipEqReg : decodeTableWord 16 0b0101000100100000 = some (.skipEqReg 1 2) := by decide
theorem test_decode_setImm : decodeTableWord 16 0b0110101000101111 = some (.setImm 0xA 0x2F) := by decide
theorem test_decode_addImm : decodeTableWord 16 0b0111001000100000 = some (.addImm 2 0x20) := by decide
theorem test_decode_setReg : decodeTableWord 16 0b1000111100010000 = some (.setReg 0xF 1) := by decide
theorem test_decode_orReg : decodeTableWord 16 0b1000001010100001 = some (.orReg 2 0xA) := by decide
theorem test_decode_andReg : decodeTableWord 16 0b1000001010100010 = some (.andReg 2 0xA) := by decide
theorem test_decode_xorReg : decodeTableWord 16 0b1000001010100011 = some (.xorReg 2 0xA) := by decide
theorem test_decode_addReg : decodeTableWord 16 0b1000001010100100 = some (.addReg 2 0xA) := by decide
theorem test_decode_subReg : decodeTableWord 16 0b1000001010100101 = some (.subReg 2 0xA) := by decide
theorem test_decode_shiftRight : decodeTableWord 16 0b1000001010100110 = some (.shiftRight 2 0xA) := by decide
theorem test_decode_subRegReverse : decodeTableWord 16 0b1000001010100111 = some (.subRegReverse 2 0xA) := by decide
theorem test_decode_shiftLeft : decodeTableWord 16 0b1000111100011110 = some (.shiftLeft 0xF 1) := by decide
theorem test_decode_skipNeReg : decodeTableWord 16 0b1001000100100000 = some (.skipNeReg 1 2) := by decide
theorem test_decode_setIndex : decodeTableWord 16 0b1010001011110000 = some (.setIndex 0x2F0) := by decide
theorem test_decode_jumpWithOffset : decodeTableWord 16 0b1011001100000001 = some (.jumpWithOffset 0x301) := by decide
theorem test_decode_randomAnd : decodeTableWord 16 0b1100001100001111 = some (.randomAnd 3 0x0F) := by decide
theorem test_decode_drawSprite : decodeTableWord 16 0b1101011110100101 = some (.drawSprite 7 0xA 5) := by decide
theorem test_decode_skipIfKeyPressed : decodeTableWord 16 0b1110010110011110 = some (.skipIfKeyPressed 5) := by decide
theorem test_decode_skipIfKeyNotPressed : decodeTableWord 16 0b1110010110100001 = some (.skipIfKeyNotPressed 5) := by decide
theorem test_decode_getDelayTimer : decodeTableWord 16 0b1111001100000111 = some (.getDelayTimer 3) := by decide
theorem test_decode_waitForKey : decodeTableWord 16 0b1111010000001010 = some (.waitForKey 4) := by decide
theorem test_decode_setDelayTimer : decodeTableWord 16 0b1111001100010101 = some (.setDelayTimer 3) := by decide
theorem test_decode_setSoundTimer : decodeTableWord 16 0b1111001100011000 = some (.setSoundTimer 3) := by decide
theorem test_decode_addToIndex : decodeTableWord 16 0b1111001000011110 = some (.addToIndex 2) := by decide
theorem test_decode_setIndexToGlyph : decodeTableWord 16 0b1111010000101001 = some (.setIndexToGlyph 4) := by decide
theorem test_decode_storeBcd : decodeTableWord 16 0b1111001100110011 = some (.storeBcd 3) := by decide
theorem test_decode_storeRegisters : decodeTableWord 16 0b1111001001010101 = some (.storeRegisters 2) := by decide
theorem test_decode_loadRegisters : decodeTableWord 16 0b1111001001100101 = some (.loadRegisters 2) := by decide

/-! ### Single steps (the ids are those of spec/95_test_vectors.md) -/

/-- G1 -/
theorem test_clearDisplay :
    seen (step { loaded 0x00E0 with fb := (togglePixel (clearedFb, false) (3, 4)).1 }) (fun t => (t.fb, t.dirty, t.pc)) =
      some (clearedFb, true, 0x202) := by decide
/-- F8 -/
theorem test_ret :
    seen (step { bytes 0x400 [0x00, 0xEE] State.reset with
        pc := 0x400, sp := 2, stack := (State.reset.stack.set 0 0x0202).set 1 0x0356 })
      (fun t => (t.pc, t.sp, t.stackEntry 0)) = some (0x356, 1, 0x0202) := by decide
/-- F9 -/
theorem test_ret_underflow :
    errorOf (step (loaded 0x00EE)) = some (true, some ⟨.stackUnderflow, 0x200, some 0x00EE⟩) := by decide
/-- F2: the whole state is unchanged. -/
theorem test_jump_self : seen (step (loaded 0x1200)) (fun t => decide (t = loaded 0x1200)) = some true := by decide
/-- F5 -/
theorem test_call_twelfth :
    seen (step { loaded 0x2400 with sp := 11 }) (fun t => (t.stackEntry 11, t.sp, t.pc)) = some (0x0202, 12, 0x400) := by decide
/-- F6 -/
theorem test_call_overflow :
    seen (step { loaded 0x2400 with sp := 12 }) (fun t => (t.halted, t.err, t.sp, t.stack)) =
      some (true, some ⟨.stackOverflow, 0x200, some 0x2400⟩, 12, State.reset.stack) := by decide
/-- F11 -/
theorem test_skipEqImm :
    (seen (step (regs [(3, 0x42)] (loaded 0x3342))) State.pc, seen (step (regs [(3, 0x41)] (loaded 0x3342))) State.pc) =
      (some 0x204, some 0x202) := by decide
/-- F12 -/
theorem test_skipNeImm :
    (seen (step (regs [(3, 0x41)] (loaded 0x4342))) State.pc, seen (step (regs [(3, 0x42)] (loaded 0x4342))) State.pc) =
      (some 0x204, some 0x202) := by decide
/-- F14 -/
theorem test_skipEqReg :
    (seen (step (regs [(1, 7), (2, 7)] (loaded 0x5120))) State.pc, seen (step (regs [(1, 7), (2, 8)] (loaded 0x5120))) State.pc) =
      (some 0x204, some 0x202) := by decide
/-- F15 -/
theorem test_skipNeReg :
    (seen (step (regs [(1, 7), (2, 8)] (loaded 0x9120))) State.pc, seen (step (regs [(1, 7), (2, 7)] (loaded 0x9120))) State.pc) =
      (some 0x204, some 0x202) := by decide
/-- A1 -/
theorem test_setImm : seen (step (loaded 0x6A2F)) (fun t => (t.reg 0xA, t.pc)) = some (0x2F, 0x202) := by decide
/-- A4 -/
theorem test_addImm :
    seen (step (regs [(2, 0xF0), (0xF, 5)] (loaded 0x7220))) (fun t => (t.reg 2, t.vf)) = some (0x10, 5) := by decide
/-- A7 -/
theorem test_setReg :
    seen (step (regs [(1, 0x33), (0xF, 7)] (loaded 0x8010))) (fun t => (t.reg 0, t.vf)) = some (0x33, 7) := by decide
/-- A9 -/
theorem test_orReg :
    seen (step (regs [(0, 0xF0), (1, 0x0F), (0xF, 7)] (loaded 0x8011))) (fun t => (t.reg 0, t.vf)) = some (0xFF, 7) := by decide
/-- A10 -/
theorem test_andReg :
    seen (step (regs [(0, 0xF3), (1, 0x3F), (0xF, 7)] (loaded 0x8012))) (fun t => (t.reg 0, t.vf)) = some (0x33, 7) := by decide
/-- A11 -/
theorem test_xorReg :
    seen (step (regs [(0, 0xFF), (1, 0x0F), (0xF, 7)] (loaded 0x8013))) (fun t => (t.reg 0, t.vf)) = some (0xF0, 7) := by decide
/-- 2.3, `(C8,64) -> (2C,1)` -/
theorem test_addReg :
    seen (step (regs [(0, 0xC8), (1, 0x64)] (loaded 0x8014))) (fun t => (t.reg 0, t.reg 1, t.vf)) = some (0x2C, 0x64, 1) := by decide
/-- V1: the result stays in `VF`. -/
theorem test_addReg_to_vf :
    seen (step (regs [(0xF, 0xF0), (1, 0x20)] (loaded 0x8F14))) State.vf = some 0x10 := by decide
/-- 2.3, `(05,0A)` -/
theorem test_subReg :
    seen (step (regs [(0, 0x05), (1, 0x0A)] (loaded 0x8015))) (fun t => (t.reg 0, t.vf)) = some (0xFB, 0) := by decide
/-- V13: the old `VF` is the operand. -/
theorem test_subReg_from_vf :
    seen (step (regs [(1, 5), (0xF, 1)] (loaded 0x81F5))) (fun t => (t.reg 1, t.vf)) = some (4, 1) := by decide
/-- 2.3, `81` with the old destination `EE` ignored -/
theorem test_shiftRight :
    seen (step (regs [(0, 0xEE), (1, 0x81)] (loaded 0x8016))) (fun t => (t.reg 0, t.reg 1, t.vf)) = some (0x40, 0x81, 1) := by decide
/-- 2.3, `(05,0A)` -/
theorem test_subRegReverse :
    seen (step (regs [(0, 0x05), (1, 0x0A)] (loaded 0x8017))) (fun t => (t.reg 0, t.vf)) = some (0x05, 1) := by decide
/-- 2.3, `81` with the old destination `EE` ignored -/
theorem test_shiftLeft :
    seen (step (regs [(0, 0xEE), (1, 0x81)] (loaded 0x801E))) (fun t => (t.reg 0, t.reg 1, t.vf)) = some (0x02, 0x81, 1) := by decide
/-- V11 -/
theorem test_shiftLeft_of_vf : seen (step (regs [(0xF, 0x91)] (loaded 0x8FFE))) State.vf = some 0x22 := by decide
/-- M3 -/
theorem test_setIndex : seen (step { loaded 0xA2F0 with i := 0x0123 }) State.i = some 0x02F0 := by decide
/-- F18 -/
theorem test_jumpWithOffset : seen (step (regs [(0, 0xFF)] (loaded 0xBFFF))) State.pc = some 0x10FE := by decide
/-- 2.3, `C30F`: the draw AND `0F`, and the draw is counted. -/
theorem test_randomAnd :
    seen (step (regs [(3, 0x55)] (loaded 0xC30F))) (fun t => (t.reg 3, t.pc, t.draws)) = some (Config.rand8 0 &&& 0x0F, 0x202, 1) :=
  rfl
/-- G3 (S5): the wrapped row, and nothing else in it. -/
theorem test_drawSprite_wraps :
    seen (step { regs [(0, 0x3F)] (bytes 0x300 [0xFF] (loaded 0xD011)) with i := 0x300 })
      (fun t => (onCells t [0, 1, 31] (List.finRange 64), t.vf, t.dirty)) =
      some ([(0, 0), (0, 1), (0, 2), (0, 3), (0, 4), (0, 5), (0, 6), (0, 63)], 0, true) := by decide
/-- G8: the second draw over a lit cell. -/
theorem test_drawSprite_collides :
    seen (step { bytes 0x300 [0x60] (loaded 0xD011) with
        i := 0x300, fb := (togglePixel (togglePixel (clearedFb, false) (0, 0)) (0, 1)).1 })
      (fun t => (onCells t [0] (List.finRange 64), t.vf)) = some ([(0, 0), (0, 2)], 1) := by decide
/-- K1 and K3 -/
theorem test_skipIfKeyPressed :
    (seen (step ((regs [(5, 0xA)] (loaded 0xE59E)).setKey 0xA true)) State.pc,
      seen (step ((regs [(5, 0xA)] (loaded 0xE59E)).setKey 0xB true)) State.pc) = (some 0x204, some 0x202) := by decide
/-- K6 -/
theorem test_skipIfKeyPressed_out_of_range :
    seen (step (regs [(5, 0x10)] (loaded 0xE59E))) State.pc = none := by decide
/-- K2 -/
theorem test_skipIfKeyNotPressed :
    (seen (step (regs [(5, 0xA)] (loaded 0xE5A1))) State.pc,
      seen (step ((regs [(5, 0xA)] (loaded 0xE5A1)).setKey 0xA true)) State.pc) = (some 0x204, some 0x202) := by decide
/-- K8 -/
theorem test_getDelayTimer :
    seen (step { loaded 0xF307 with dt := 0x3C }) (fun t => (t.reg 3, t.dt)) = some (0x3C, 0x3C) := by decide
/-- K10: no key. -/
theorem test_waitForKey_none :
    seen (step (regs [(4, 0xEE)] (loaded 0xF40A))) (fun t => (t.pc, t.reg 4)) = some (0x200, 0xEE) := by decide
/-- K10: two keys. -/
theorem test_waitForKey_lowest :
    seen (step (((loaded 0xF40A).setKey 7 true).setKey 3 true)) (fun t => (t.reg 4, t.pc, t.keyDown 3)) =
      some (3, 0x202, true) := by decide
/-- K9 -/
theorem test_setDelayTimer :
    seen (step { regs [(3, 0x3C)] (loaded 0xF315) with st := 9 }) (fun t => (t.dt, t.st)) = some (0x3C, 9) := by decide
/-- K13 -/
theorem test_setSoundTimer :
    seen (step { regs [(3, 5)] (loaded 0xF318) with dt := 9 }) (fun t => (t.st, t.dt)) = some (5, 9) := by decide
/-- M4 -/
theorem test_addToIndex :
    seen (step { regs [(2, 5), (0xF, 7)] (loaded 0xF21E) with i := 0x0FFE }) (fun t => (t.i, t.vf)) = some (0x1003, 7) := by decide
/-- M7: the sum wraps at 65536. -/
theorem test_addToIndex_wraps : seen (step { regs [(2, 2)] (loaded 0xF21E) with i := 0xFFFF }) State.i = some 1 := by decide
/-- M9 and M10 -/
theorem test_setIndexToGlyph :
    (seen (step (regs [(4, 0x0A)] (loaded 0xF429))) State.i, seen (step (regs [(4, 0xFF)] (loaded 0xF429))) State.i) =
      (some 0x0032, some 0x04FB) := by decide
/-- M11 (S9) -/
theorem test_storeBcd :
    seen (step { regs [(3, 234)] (bytes 0x300 [0xEE, 0xEE, 0xEE, 0xEE] (loaded 0xF333)) with i := 0x300 })
      (fun t => ([0x300, 0x301, 0x302, 0x303].map t.readByte, t.i)) = some ([2, 3, 4, 0xEE], 0x300) := by decide
/-- M13 -/
theorem test_storeBcd_out_of_bounds :
    errorOf (step { loaded 0xF333 with i := 0x0FFE }) =
      some (true, some ⟨.memoryAccessOutOfBounds, 0x200, some 0xF333⟩) := by decide
/-- M15 -/
theorem test_storeRegisters :
    seen (step { regs [(0, 0x11), (1, 0x22), (2, 0x33), (3, 0x44)] (bytes 0x400 [0xEE, 0xEE, 0xEE, 0xEE] (loaded 0xF255)) with
        i := 0x400 })
      (fun t => ([0x400, 0x401, 0x402, 0x403].map t.readByte, t.i)) = some ([0x11, 0x22, 0x33, 0xEE], 0x400) := by decide
/-- M20 -/
theorem test_loadRegisters :
    seen (step { regs [(3, 0x99)] (bytes 0x400 [0x11, 0x22, 0x33, 0x44] (loaded 0xF265)) with i := 0x400 })
      (fun t => ([0, 1, 2, 3].map t.reg, t.i)) = some ([0x11, 0x22, 0x33, 0x99], 0x400) := by decide
/-- M26: no wrap to address 0. -/
theorem test_loadRegisters_out_of_bounds :
    errorOf (step { loaded 0xF065 with i := 0xFFFF }) =
      some (true, some ⟨.memoryAccessOutOfBounds, 0x200, some 0xF065⟩) := by decide
/-- T1 -/
theorem test_unloaded :
    errorOf (step State.reset) = some (true, some ⟨.unknownOpcode, 0x200, some 0x0000⟩) := by decide
/-- T2 -/
theorem test_fetch_bound :
    errorOf (step { State.reset with pc := 0xFFF }) = some (true, some ⟨.pcOutOfBounds, 0xFFF, none⟩) := by decide
/-- T4 -/
theorem test_last_fetch :
    seen (step { bytes 0xFFE [0x60, 0x00] State.reset with pc := 0xFFE }) (fun t => (t.pc, t.halted)) =
      some (0x1000, false) := by decide
/-- K14 and K15 -/
theorem test_tick :
    ((State.tickTimers { State.reset with dt := 2 }).dt, (State.tickTimers { State.reset with dt := 0xFF, st := 0 }).st) =
      (1, 0) := by decide

/-- R180: one cell that is on and its neighbour that is off. -/
theorem test_readCell :
    (perform (.readCell 3 4) { State.reset with fb := (togglePixel (clearedFb, false) (3, 4)).1 } matches .next (.cell true, _)) = true ∧
      (perform (.readCell 3 5) { State.reset with fb := (togglePixel (clearedFb, false) (3, 4)).1 } matches .next (.cell false, _)) = true := by
  decide

/-! ### Witnesses: states and operands that meet the hypotheses of each obligation, clause by clause, boundary values among them -/

/-- The reset state with a sprite byte at 0x300 and `I` there. -/
def spriteState : State := { bytes 0x300 [0x80] State.reset with i := 0x300 }

/-- A state halted by a fatal error, written out. -/
def haltedState : State := { State.reset with halted := true, err := some ⟨.stackUnderflow, 0x200, some 0x00EE⟩ }

theorem witness_DecodeAndEncodeAreInverse : decodeWord 0xD7A5 = .ok (.drawSprite 7 0xA 5) := by decide

theorem witness_DecoderFollowsTheOpcodeMap :
    (∃ r ∈ opcodeRows, r.selects 0x00E0 = true) ∧ (∃ r ∈ opcodeRows, r.selects 0xF165 = true) ∧
      (∀ r ∈ opcodeRows, r.selects 0xF166 = false) := by decide

/-- Both ends of the fetch range. -/
theorem witness_StepRunsTheDecodedInstruction :
    ((loaded 0x6A2F).halted = false ∧ (loaded 0x6A2F).pc.toNat ≤ 0xFFE ∧
      decodeBytes ((loaded 0x6A2F).readByte (loaded 0x6A2F).pc.toNat :: (loaded 0x6A2F).readByte ((loaded 0x6A2F).pc.toNat + 1) :: []) =
        .ok (.setImm 0xA 0x2F, [])) ∧
    (let s : State := { bytes 0xFFE [0x60, 0x07] State.reset with pc := 0xFFE }
     s.halted = false ∧ s.pc.toNat ≤ 0xFFE ∧
        decodeBytes (s.readByte s.pc.toNat :: s.readByte (s.pc.toNat + 1) :: []) = .ok (.setImm 0 7, [])) := by decide

theorem witness_FetchPastMemoryIsPcOutOfBounds :
    ({ State.reset with pc := 0xFFF } : State).halted = false ∧ 4095 ≤ ({ State.reset with pc := 0xFFF } : State).pc.toNat := by decide

theorem witness_IllegalWordIsUnknownOpcode :
    (loaded 0x812F).halted = false ∧ (loaded 0x812F).pc.toNat ≤ 0xFFE ∧
      (∀ r ∈ opcodeRows, r.selects (loaded 0x812F).fetch16 = false) := by decide

theorem witness_HaltedStepReturnsTheRecordedError : haltedState.halted = true := by decide

theorem witness_StepStopsOnlyAtAKeyIndexAboveFifteen :
    (regs [(5, 0x10)] (loaded 0xE59E)).halted = false ∧ (regs [(5, 0x10)] (loaded 0xE59E)).pc.toNat ≤ 0xFFE ∧
      15 < ((regs [(5, 0x10)] (loaded 0xE59E)).reg 5).toNat ∧
      (regs [(5, 0x10)] (loaded 0xE59E)).fetch16 = 0xE#4 ++ 5#4 ++ 0x9E#8 ∧
      (regs [(5, 0x10)] (loaded 0xE5A1)).fetch16 = 0xE#4 ++ 5#4 ++ 0xA1#8 := by decide

theorem witness_ReturnPopsThePc :
    (0 < ({ State.reset with sp := 1 } : State).sp ∧ ({ State.reset with sp := 1 } : State).sp ≤ 12) ∧
      (0 < ({ State.reset with sp := 12 } : State).sp ∧ ({ State.reset with sp := 12 } : State).sp ≤ 12) ∧
      State.reset.sp = 0 := by decide

theorem witness_CallPushesTheNextAddress : State.reset.sp < 12 ∧ ({ State.reset with sp := 11 } : State).sp < 12 := by decide

theorem witness_ThirteenthCallOverflows : ({ State.reset with sp := 12 } : State).sp = 12 := by decide

theorem witness_AddRegSetsCarry : (0xE : RegIdx) ≠ 0xF := by decide
theorem witness_SubRegSetsNotBorrow : (0xE : RegIdx) ≠ 0xF := by decide
theorem witness_ShiftRightShiftsTheYRegister : (0xE : RegIdx) ≠ 0xF := by decide
theorem witness_SubRegReverseSetsNotBorrow : (0xE : RegIdx) ≠ 0xF := by decide
theorem witness_ShiftLeftShiftsTheYRegister : (0xE : RegIdx) ≠ 0xF := by decide

/-- The last address that fits and the first that does not. -/
theorem witness_StoreBcdWritesThreeDigits :
    ({ State.reset with i := 0xFFD } : State).i.toNat + 2 < 4096 ∧ 4096 ≤ ({ State.reset with i := 0xFFE } : State).i.toNat + 2 := by
  decide

theorem witness_StoreRegistersWritesV0ToVx :
    ({ State.reset with i := 0xFF0 } : State).i.toNat + (0xF : RegIdx).toNat < 4096 ∧
      4096 ≤ ({ State.reset with i := 0xFF1 } : State).i.toNat + (0xF : RegIdx).toNat := by decide

theorem witness_LoadRegistersReadsV0ToVx :
    ({ State.reset with i := 0xFFF } : State).i.toNat + (0 : RegIdx).toNat < 4096 ∧
      4096 ≤ ({ State.reset with i := 0x1000 } : State).i.toNat + (0 : RegIdx).toNat := by decide

/-- `n = 0` anywhere, the last row that fits, the first that does not, a covered cell that is on, and no covered cell that is on. -/
theorem witness_DrawSpriteTogglesTheCellsItCovers :
    ((0 : BitVec 4).toNat = 0 ∨ ({ State.reset with i := 0xFFFF } : State).i.toNat + ((0 : BitVec 4).toNat - 1) < 4096) ∧
      (({ State.reset with i := 0xFF1 } : State).i.toNat + ((0xF : BitVec 4).toNat - 1) < 4096) ∧
      (0 < (0xF : BitVec 4).toNat ∧ 4096 ≤ ({ State.reset with i := 0xFF2 } : State).i.toNat + ((0xF : BitVec 4).toNat - 1)) ∧
      (∃ r c, ({ spriteState with fb := (togglePixel (clearedFb, false) (0, 0)).1 } : State).spriteCovers 0 0 1 r c ∧
        ({ spriteState with fb := (togglePixel (clearedFb, false) (0, 0)).1 } : State).cell r c = true) ∧
      (¬ ∃ r c, spriteState.spriteCovers 0 0 1 r c ∧ spriteState.cell r c = true) := by
  refine ⟨by decide, by decide, by decide, ⟨0, 0, ⟨0, by decide, 0, by decide, by decide, rfl, rfl⟩, by decide⟩, ?_⟩
  rintro ⟨r, c, -, h⟩
  rw [show spriteState.cell r c = false from cellOf_clearedFb r c] at h
  cases h

theorem witness_DrawingTwiceRestoresTheFramebuffer :
    (0 : RegIdx) ≠ 0xF ∧ (1 : RegIdx) ≠ 0xF ∧ (spriteState.i.toNat + ((1 : BitVec 4).toNat - 1) < 4096) ∧
      (∀ r c, spriteState.cell r c = false) :=
  ⟨by decide, by decide, by decide, fun r c => cellOf_clearedFb r c⟩

/-- The key indices 0, 15 and 16. -/
theorem witness_KeySkipsTestTheLatch :
    (State.reset.setKey 0 true).key[((State.reset.setKey 0 true).reg 5).toNat]? = some true ∧
      (regs [(5, 15)] State.reset).key[((regs [(5, 15)] State.reset).reg 5).toNat]? = some false ∧
      15 < ((regs [(5, 16)] State.reset).reg 5).toNat := by decide

/-- Key 15 alone, key 0, and no key. -/
theorem witness_WaitForKeyTakesTheLowestKey :
    ((State.reset.setKey 15 true).key[15]? = some true ∧ ∀ j < 15, (State.reset.setKey 15 true).key[j]? = some false) ∧
      ((State.reset.setKey 0 true).key[0]? = some true ∧ ∀ j < 0, (State.reset.setKey 0 true).key[j]? = some false) ∧
      (∀ k < 16, State.reset.key[k]? = some false) := by decide

theorem witness_LoadCopiesTheImageToProgramSpace :
    ([] : List Byte).length ≤ 3584 ∧ (List.replicate 3584 (0xAA : Byte)).length ≤ 3584 := by
  rw [List.length_replicate]; decide

theorem witness_LoadFailsExactlyPastCapacity :
    3584 < (List.replicate 3585 (0 : Byte)).length ∧ (List.replicate 3584 (0 : Byte)).length ≤ 3584 ∧
      (List.replicate 3584 (0 : Byte)).length = 3584 := by
  rw [List.length_replicate, List.length_replicate]; decide

theorem witness_FramebufferPortReadsRowMajor :
    Operation.clearDirty ≠ .reset ∧ Operation.clearDirty ≠ .step ∧
      perform .clearDirty State.reset = .next (.done, State.reset.clearDirty) := ⟨by decide, by decide, rfl⟩

theorem witness_TickDecrementsEachTimerToZero :
    (∃ t, completes (step (loaded 0xF315)) t) ∧ Operation.clearDirty ∉ [Operation.tickTimers, .reset, .step] ∧
      perform .clearDirty State.reset = .next (.done, State.reset.clearDirty) := ⟨⟨_, rfl, rfl⟩, by decide, rfl⟩

/-- A drawing instruction, another, and an operation other than a step. -/
theorem witness_DirtyFlagPortReadsAndClears :
    (decodeWord (loaded 0x00E0).fetch16 = .ok .clearDisplay ∧ ∃ t, completes (step (loaded 0x00E0)) t) ∧
      (decodeWord (loaded 0x1200).fetch16 = .ok (.jump 0x200) ∧ ∃ t, completes (step (loaded 0x1200)) t) ∧
      (Operation.tickTimers ≠ .step ∧ perform .tickTimers State.reset = .next (.done, State.reset.tickTimers)) :=
  ⟨⟨by decide, _, rfl, rfl⟩, ⟨by decide, _, rfl, rfl⟩, by decide, rfl⟩

/-- The shortest image, the longest, and an instruction in it. -/
theorem witness_BootRunsImageBytesZeroAndOne :
    ([] : List Byte).length + 2 ≤ 3584 ∧ (List.replicate 3582 (0 : Byte)).length + 2 ≤ 3584 ∧
      decodeBytes [0x12, 0x00] = .ok (.jump 0x200, []) := by
  rw [List.length_replicate]; decide

theorem witness_OnlyResetLeavesTheHaltedState : haltedState.halted = true := by decide

theorem reset_inv : State.reset.Inv :=
  ⟨by decide, by decide, by decide, fun _ => by decide, fun _ k hk => absurd hk (by simp [State.reset])⟩

/-- The invariant at its bounds: a full stack of the highest return address, `PC` at the highest jump target. -/
theorem boundary_inv :
    ({ State.reset with sp := 12, stack := Vector.replicate 12 0x1000, pc := 0x10FE } : State).Inv :=
  ⟨by decide, by decide, by decide, fun _ => by decide, fun _ k hk => by
    simp only [State.stackEntry]
    rw [dif_pos hk, Vector.getElem_replicate]; decide⟩

theorem witness_StepKeepsTheInvariant : ∃ t, State.reset.Inv ∧ step State.reset = .next t := ⟨_, reset_inv, rfl⟩

theorem witness_EveryExecutionKeepsTheInvariant :
    ∃ t, State.reset.Inv ∧ performAll [.setKey 3 true, .step, .readDirty] State.reset = .next t := ⟨_, reset_inv, rfl⟩

/-- One instruction outside every exempted list, from a state with `DIRTY` set. -/
theorem witness_OnlyTheNamedInstructionsChangeState :
    ({ State.reset with dirty := true } : State).halted = false ∧
      completes (exec (.jump 0x300) { State.reset with dirty := true }) (({ State.reset with dirty := true } : State).setPc 0x300) ∧
      (Instr.jump 0x300).mnemonic ∉ ["clear-display", "draw-sprite", "store-bcd", "store-registers", "call", "return", "set-index",
        "add-to-index", "set-index-to-glyph", "set-delay-timer", "set-sound-timer"] :=
  ⟨rfl, ⟨rfl, rfl⟩, by decide⟩

theorem witness_OnlyTheNamedRegistersChange :
    (∃ t, completes (exec (.addReg 0xE 1) State.reset) t) ∧ (Instr.addReg 0xE 1).mnemonic = "add-reg" ∧
      fieldX (encode (.addReg 0xE 1)) ≠ 0xF ∧
      (∃ t, completes (exec (.drawSprite 0 1 1) spriteState) t) ∧ (Instr.drawSprite 0 1 1).mnemonic = "draw-sprite" :=
  ⟨⟨_, rfl, rfl⟩, by decide, by decide, ⟨_, rfl, rfl⟩, by decide⟩

theorem witness_EachInstructionRaisesOneKindOfError :
    State.reset.halted = false ∧ ∃ t, exec .ret State.reset = .next t ∧ t.halted = true := ⟨rfl, _, rfl, rfl⟩

/-- A call at 0x200 of the last address that can be fetched. -/
theorem witness_CallThenReturnRoundTrips :
    let s := bytes 0xFFE [0x00, 0xEE] (loaded 0x2FFE)
    s.halted = false ∧ s.pc.toNat ≤ 0xFFE ∧ s.sp < 12 ∧ s.fetch16 = 0x2#4 ++ (0xFFE : Addr) ∧ (0xFFE : Addr).toNat ≤ 0xFFE ∧
      s.readByte (0xFFE : Addr).toNat = 0x00 ∧ s.readByte ((0xFFE : Addr).toNat + 1) = 0xEE := by decide

/-- The last two bytes of memory, stored and then fetched as a jump. -/
theorem witness_StoredCodeIsFetchedNext :
    let s : State := { regs [(0, 0x12), (1, 0x18)] State.reset with i := 0xFFE, pc := 0xFFE }
    s.halted = false ∧ (0 : RegIdx).toNat < (1 : RegIdx).toNat ∧ s.i.toNat + (1 : RegIdx).toNat < 4096 ∧
      s.pc.toNat = s.i.toNat + (0 : RegIdx).toNat ∧ decodeBytes [s.reg 0, s.reg (0 + 1)] = .ok (.jump 0x218, []) := by decide

theorem witness_SelfJumpIsAFixedPoint : (loaded 0x1200).selfJump := ⟨by decide, by decide, 0x200, by decide, by decide⟩

theorem witness_WaitForKeySpinsUntilAKeyIsSet :
    (loaded 0xF40A).halted = false ∧ (loaded 0xF40A).pc.toNat ≤ 0xFFE ∧ (loaded 0xF40A).fetch16 = 0xF#4 ++ 4#4 ++ 0x0A#8 ∧
      ∀ j, (loaded 0xF40A).keyDown j = false := by decide

/-- Two states that differ in `ST` and `DIRTY`, with a next state, and with a fault. -/
theorem witness_SoundTimerAndDirtyFlagAreNeverRead :
    agreeButStAndDirty (loaded 0x1200) { loaded 0x1200 with st := 9, dirty := true } ∧ (∃ t, step (loaded 0x1200) = .next t) ∧
      agreeButStAndDirty haltedState { haltedState with st := 9, dirty := true } ∧ ∃ f, step haltedState = .fault f :=
  ⟨rfl, ⟨_, rfl⟩, rfl, _, rfl⟩

/-- The stack of the state below with every dead entry different. -/
def otherDead : Vector Word 12 := (Vector.replicate 12 0xFFFF).set 0 0

/-- A call from depth 1. -/
theorem witness_DeadStackEntriesAreNeverRead :
    ({ loaded 0x2300 with sp := 1 } : State).sp ≤ 12 ∧ (∀ k < 1, otherDead[k]? = (loaded 0x2300).stack[k]?) ∧
      otherDead ≠ (loaded 0x2300).stack ∧ ∃ t, completes (step { loaded 0x2300 with sp := 1 }) t :=
  ⟨by decide, by decide, by decide, _, rfl, rfl⟩

end Sys2Proof.Tests
end

section
/-! Encoding (R60 to R66 of 30_encoding.md): decode and encode are inverse, and the decoder follows the rows of the opcode map. -/

namespace Sys2Proof

/-! ### A word with known fixed fields is its encoding -/

theorem word_of_nnn {op : Word} {f : BitVec 4} (hf : fieldF op = f) : f ++ fieldNNN op = op :=
  hf ▸ word_eq_nnn op

theorem word_of_xkk {op : Word} {f : BitVec 4} (hf : fieldF op = f) : f ++ fieldX op ++ fieldKK op = op :=
  hf ▸ word_eq_xkk op

theorem word_of_xyn {op : Word} {f : BitVec 4} (hf : fieldF op = f) : f ++ fieldX op ++ fieldY op ++ fieldN op = op :=
  hf ▸ word_eq_xyn op

theorem word_of_xy {op : Word} {f n : BitVec 4} (hf : fieldF op = f) (hn : fieldN op = n) :
    f ++ fieldX op ++ fieldY op ++ n = op :=
  hn ▸ word_of_xyn hf

theorem word_of_x {op : Word} {f : BitVec 4} {kk : Byte} (hf : fieldF op = f) (hkk : fieldKK op = kk) :
    f ++ fieldX op ++ kk = op :=
  hkk ▸ word_of_xkk hf

/-! ### Decoding an encoding -/

/-- An encoded instruction decodes to itself. Per constructor: the family nibble picks the decoder's branch, the sub-opcode picks
the instruction, and the fields read the operands back. -/
@[simp] theorem decodeWord_encode (i : Instr) : decodeWord (encode i) = .ok i := by
  cases i with
  | clearDisplay | ret => rfl
  | jump | call | setIndex | jumpWithOffset => simp [encode, decodeWord]
  | skipEqImm | skipNeImm | setImm | addImm | randomAnd => simp [encode, decodeWord]
  | skipEqReg | skipNeReg | drawSprite => simp [encode, decodeWord]
  | setReg | orReg | andReg | xorReg | addReg | subReg | shiftRight | subRegReverse | shiftLeft =>
    simp [encode, decodeWord, decodeFamily8]
  | skipIfKeyPressed | skipIfKeyNotPressed => simp [encode, decodeWord, decodeFamilyE]
  | getDelayTimer | waitForKey | setDelayTimer | setSoundTimer | addToIndex | setIndexToGlyph | storeBcd | storeRegisters
  | loadRegisters => simp [encode, decodeWord, decodeFamilyF]

theorem decodeBytes_encodeBytes (i : Instr) (rest : List Byte) : decodeBytes (encodeBytes i ++ rest) = .ok (i, rest) := by
  rw [encodeBytes, decodeBytes_bytesOfWord, decodeWord_encode]

theorem decodeTableWord_encode (i : Instr) : decodeTableWord 16 (encode i).toNat = some i := by
  have h := decodeBytes_encodeBytes i []
  rw [List.append_nil, encodeBytes] at h
  rw [decodeTableWord, tableWord_toNat, h]

/-! ### Encoding what was decoded -/

theorem encode_of_decodeFamily8 {op : Word} {i : Instr} (hf : fieldF op = 0x8#4) (h : decodeFamily8 op = .ok i) :
    encode i = op := by
  unfold decodeFamily8 at h
  split at h <;> cases h
  all_goals exact word_of_xy hf ‹_›

theorem encode_of_decodeFamilyE {op : Word} {i : Instr} (hf : fieldF op = 0xE#4) (h : decodeFamilyE op = .ok i) :
    encode i = op := by
  unfold decodeFamilyE at h
  split at h <;> cases h
  all_goals exact word_of_x hf ‹_›

theorem encode_of_decodeFamilyF {op : Word} {i : Instr} (hf : fieldF op = 0xF#4) (h : decodeFamilyF op = .ok i) :
    encode i = op := by
  unfold decodeFamilyF at h
  split at h <;> cases h
  all_goals exact word_of_x hf ‹_›

/-- A word that decodes is the encoding of its instruction, family by family (R65). -/
theorem encode_of_decodeWord {op : Word} {i : Instr} (h : decodeWord op = .ok i) : encode i = op := by
  unfold decodeWord at h
  split at h
  case h_1 =>
    split at h
    next hop => cases h; exact hop.symm
    next =>
      split at h
      next hop => cases h; exact hop.symm
      next => cases h
  case h_2 hf | h_3 hf | h_11 hf | h_12 hf => cases h; exact word_of_nnn hf
  case h_4 hf | h_5 hf | h_7 hf | h_8 hf | h_13 hf => cases h; exact word_of_xkk hf
  case h_6 hf | h_10 hf =>
    split at h
    next hn => cases h; exact word_of_xy hf hn
    next => cases h
  case h_9 hf => exact encode_of_decodeFamily8 hf h
  case h_14 hf => cases h; exact word_of_xyn hf
  case h_15 hf => exact encode_of_decodeFamilyE hf h
  case h_16 hf => exact encode_of_decodeFamilyF hf h
  case h_17 => cases h

/-- Settles O1: `decodeWord` and `encode` are inverse, and the byte and table forms reduce to `decodeWord`. -/
theorem decodeAndEncodeAreInverse : Obligations.DecodeAndEncodeAreInverse := by
  unfold Obligations.DecodeAndEncodeAreInverse
  exact ⟨fun i rest => ⟨decodeBytes_encodeBytes i rest, decodeTableWord_encode i⟩, fun _ _ => encode_of_decodeWord⟩

/-! ### The rows of the opcode map -/

theorem OpcodeRow.selects_iff {r : OpcodeRow} {op : Word} : r.selects op = true ↔ op &&& r.mask = r.matchVal := by
  simp [OpcodeRow.selects]

/-- The match values of two different rows differ in a bit that both masks test. -/
theorem opcodeRows_separated :
    ∀ r₁ ∈ opcodeRows, ∀ r₂ ∈ opcodeRows, r₁.matchVal &&& r₂.mask = r₂.matchVal &&& r₁.mask → r₁ = r₂ := by decide

/-- No two rows select one word: both match values are the word under both masks. -/
theorem row_eq_of_selects {op : Word} {r₁ r₂ : OpcodeRow} (h₁ : r₁ ∈ opcodeRows) (h₂ : r₂ ∈ opcodeRows)
    (s₁ : r₁.selects op = true) (s₂ : r₂.selects op = true) : r₁ = r₂ := by
  rw [OpcodeRow.selects_iff] at s₁ s₂
  refine opcodeRows_separated r₁ h₁ r₂ h₂ ?_
  rw [← s₁, ← s₂, BitVec.and_assoc, BitVec.and_assoc, BitVec.and_comm r₁.mask]

/-! ### The fixed fields of a word that a row selects (R62) -/

theorem fieldF_of_mask {op : Word} {f : BitVec 4} (h : op &&& 0xF000#16 = f ++ 0#12) : fieldF op = f := by
  rw [← word_eq_nnn op, mask_nnn] at h
  simpa using congrArg fieldF h

theorem fieldF_fieldN_of_mask {op : Word} {f n : BitVec 4} (h : op &&& 0xF00F#16 = f ++ 0#4 ++ 0#4 ++ n) :
    fieldF op = f ∧ fieldN op = n := by
  rw [← word_eq_xyn op, mask_xy] at h
  exact ⟨by simpa using congrArg fieldF h, by simpa using congrArg fieldN h⟩

theorem fieldF_fieldKK_of_mask {op : Word} {f : BitVec 4} {kk : Byte} (h : op &&& 0xF0FF#16 = f ++ 0#4 ++ kk) :
    fieldF op = f ∧ fieldKK op = kk := by
  rw [← word_eq_xkk op, mask_x] at h
  exact ⟨by simpa using congrArg fieldF h, by simpa using congrArg fieldKK h⟩

/-! ### A word that a row selects is an encoding of that row's instruction -/

theorem word_of_mask_all {op v : Word} (h : op &&& 0xFFFF#16 = v) : v = op :=
  h.symm.trans BitVec.and_allOnes

theorem word_of_mask_nnn {op : Word} {f : BitVec 4} (h : op &&& 0xF000#16 = f ++ 0#12) : f ++ fieldNNN op = op :=
  word_of_nnn (fieldF_of_mask h)

theorem word_of_mask_xkk {op : Word} {f : BitVec 4} (h : op &&& 0xF000#16 = f ++ 0#12) : f ++ fieldX op ++ fieldKK op = op :=
  word_of_xkk (fieldF_of_mask h)

theorem word_of_mask_xyn {op : Word} {f : BitVec 4} (h : op &&& 0xF000#16 = f ++ 0#12) :
    f ++ fieldX op ++ fieldY op ++ fieldN op = op :=
  word_of_xyn (fieldF_of_mask h)

theorem word_of_mask_xy {op : Word} {f n : BitVec 4} (h : op &&& 0xF00F#16 = f ++ 0#4 ++ 0#4 ++ n) :
    f ++ fieldX op ++ fieldY op ++ n = op :=
  have ⟨hf, hn⟩ := fieldF_fieldN_of_mask h
  word_of_xy hf hn

theorem word_of_mask_x {op : Word} {f : BitVec 4} {kk : Byte} (h : op &&& 0xF0FF#16 = f ++ 0#4 ++ kk) :
    f ++ fieldX op ++ kk = op :=
  have ⟨hf, hkk⟩ := fieldF_fieldKK_of_mask h
  word_of_x hf hkk

/-- The converse of `Laws.EncodesIntoItsRow.all`, row by row in the order of R64. -/
theorem exists_encode_of_selects {op : Word} :
    ∀ r ∈ opcodeRows, r.selects op = true → ∃ i, encode i = op ∧ i.mnemonic = r.mnemonic := by
  simp only [opcodeRows, opcodeRowsLow, opcodeRowsHigh, List.cons_append, List.nil_append, List.forall_mem_cons,
    OpcodeRow.selects_iff]
  exact ⟨
    fun h => ⟨.clearDisplay, word_of_mask_all h, rfl⟩,
    fun h => ⟨.ret, word_of_mask_all h, rfl⟩,
    fun h => ⟨.jump (fieldNNN op), word_of_mask_nnn h, rfl⟩,
    fun h => ⟨.call (fieldNNN op), word_of_mask_nnn h, rfl⟩,
    fun h => ⟨.skipEqImm (fieldX op) (fieldKK op), word_of_mask_xkk h, rfl⟩,
    fun h => ⟨.skipNeImm (fieldX op) (fieldKK op), word_of_mask_xkk h, rfl⟩,
    fun h => ⟨.skipEqReg (fieldX op) (fieldY op), word_of_mask_xy h, rfl⟩,
    fun h => ⟨.setImm (fieldX op) (fieldKK op), word_of_mask_xkk h, rfl⟩,
    fun h => ⟨.addImm (fieldX op) (fieldKK op), word_of_mask_xkk h, rfl⟩,
    fun h => ⟨.setReg (fieldX op) (fieldY op), word_of_mask_xy h, rfl⟩,
    fun h => ⟨.orReg (fieldX op) (fieldY op), word_of_mask_xy h, rfl⟩,
    fun h => ⟨.andReg (fieldX op) (fieldY op), word_of_mask_xy h, rfl⟩,
    fun h => ⟨.xorReg (fieldX op) (fieldY op), word_of_mask_xy h, rfl⟩,
    fun h => ⟨.addReg (fieldX op) (fieldY op), word_of_mask_xy h, rfl⟩,
    fun h => ⟨.subReg (fieldX op) (fieldY op), word_of_mask_xy h, rfl⟩,
    fun h => ⟨.shiftRight (fieldX op) (fieldY op), word_of_mask_xy h, rfl⟩,
    fun h => ⟨.subRegReverse (fieldX op) (fieldY op), word_of_mask_xy h, rfl⟩,
    fun h => ⟨.shiftLeft (fieldX op) (fieldY op), word_of_mask_xy h, rfl⟩,
    fun h => ⟨.skipNeReg (fieldX op) (fieldY op), word_of_mask_xy h, rfl⟩,
    fun h => ⟨.setIndex (fieldNNN op), word_of_mask_nnn h, rfl⟩,
    fun h => ⟨.jumpWithOffset (fieldNNN op), word_of_mask_nnn h, rfl⟩,
    fun h => ⟨.randomAnd (fieldX op) (fieldKK op), word_of_mask_xkk h, rfl⟩,
    fun h => ⟨.drawSprite (fieldX op) (fieldY op) (fieldN op), word_of_mask_xyn h, rfl⟩,
    fun h => ⟨.skipIfKeyPressed (fieldX op), word_of_mask_x h, rfl⟩,
    fun h => ⟨.skipIfKeyNotPressed (fieldX op), word_of_mask_x h, rfl⟩,
    fun h => ⟨.getDelayTimer (fieldX op), word_of_mask_x h, rfl⟩,
    fun h => ⟨.waitForKey (fieldX op), word_of_mask_x h, rfl⟩,
    fun h => ⟨.setDelayTimer (fieldX op), word_of_mask_x h, rfl⟩,
    fun h => ⟨.setSoundTimer (fieldX op), word_of_mask_x h, rfl⟩,
    fun h => ⟨.addToIndex (fieldX op), word_of_mask_x h, rfl⟩,
    fun h => ⟨.setIndexToGlyph (fieldX op), word_of_mask_x h, rfl⟩,
    fun h => ⟨.storeBcd (fieldX op), word_of_mask_x h, rfl⟩,
    fun h => ⟨.storeRegisters (fieldX op), word_of_mask_x h, rfl⟩,
    fun h => ⟨.loadRegisters (fieldX op), word_of_mask_x h, rfl⟩,
    List.forall_mem_nil _⟩

/-! ### The decoder and the opcode map -/

theorem decodeWord_of_selects {op : Word} {r : OpcodeRow} (hr : r ∈ opcodeRows) (h : r.selects op = true) :
    ∃ i, decodeWord op = .ok i ∧ i.mnemonic = r.mnemonic := by
  obtain ⟨i, rfl, hname⟩ := exists_encode_of_selects r hr h
  exact ⟨i, decodeWord_encode i, hname⟩

/-- A word that decodes is selected by the row of its instruction. -/
theorem exists_selects_of_decodeWord {op : Word} {i : Instr} (h : decodeWord op = .ok i) :
    ∃ r ∈ opcodeRows, r.mnemonic = i.mnemonic ∧ r.selects op = true :=
  encode_of_decodeWord h ▸ Laws.EncodesIntoItsRow.all i

/-- The only way a whole word is refused: with itself, as an unknown opcode (R66). -/
theorem decodeWord_error {op : Word} {e : DecodeError} (h : decodeWord op = .error e) : e = .unknownOpcode op := by
  unfold decodeWord decodeFamily8 decodeFamilyE decodeFamilyF at h
  repeat' split at h
  all_goals cases h
  all_goals rfl

theorem decodeWord_of_not_selects {op : Word} (h : ∀ r ∈ opcodeRows, r.selects op = false) :
    decodeWord op = .error (.unknownOpcode op) := by
  cases hd : decodeWord op with
  | error e => rw [decodeWord_error hd]
  | ok i =>
    obtain ⟨r, hr, -, hsel⟩ := exists_selects_of_decodeWord hd
    rw [h r hr] at hsel
    cases hsel

/-- Settles O2: the rows are disjoint, the words they select are the encodings, and the rest is refused. -/
theorem decoderFollowsTheOpcodeMap : Obligations.DecoderFollowsTheOpcodeMap := by
  unfold Obligations.DecoderFollowsTheOpcodeMap
  exact ⟨fun _ _ h₁ _ h₂ => row_eq_of_selects h₁ h₂, fun _ _ => decodeWord_of_selects, fun _ => decodeWord_of_not_selects⟩

/-! ### Words written out -/

/-- Settles O3: each word is the encoding of the instruction named. -/
theorem writtenOutWordsDecode : Obligations.WrittenOutWordsDecode := by
  unfold Obligations.WrittenOutWordsDecode
  exact ⟨decodeWord_encode .clearDisplay, decodeWord_encode (.jump 0x200), decodeWord_encode (.skipNeReg 1 2),
    decodeWord_encode (.shiftLeft 0xF 1), decodeWord_encode (.drawSprite 7 0xA 5),
    decodeWord_encode (.skipIfKeyPressed 5), decodeWord_encode (.storeRegisters 2)⟩

end Sys2Proof
end

section
namespace Sys2Proof
open Sys2Proof.Machine

/-! ### The step cycle on a halted CORE (R87) -/

/-- Settles O7: the halt latch is tested before anything else, and the host's `step` answers the fault by the record it carries. -/
theorem haltedStepReturnsTheRecordedError : Obligations.HaltedStepReturnsTheRecordedError := by
  unfold Obligations.HaltedStepReturnsTheRecordedError
  exact fun _ hhalted => ⟨step_halted hhalted, perform_step_halted hhalted⟩

end Sys2Proof
end

section
/-! Control transfer (41_flow_control.md): what each instruction makes of `PC` and the stack, and that it changes nothing else. -/

namespace Sys2Proof.Machine

/-! ### What the updates of control transfer leave unchanged -/

theorem onlyPc_setPc (s : State) (w : Word) : onlyPc s (s.setPc w) := by
  unfold onlyPc onlyRegsAndPc sameRegs sameMem sameStack sameTimers sameDisplay sameControl
  simp

theorem onlyStackAndPc_popPc (s : State) : onlyStackAndPc s s.popPc := by
  unfold onlyStackAndPc sameRegs sameMem sameTimers sameDisplay sameControl
  simp

/-! ### The popped entry and the offset target -/

/-- Inside the stack an entry is the stored one; only past it is there a default (log 8). -/
theorem State.stack_getElem?_eq_stackEntry (s : State) {k : Nat} (hk : k < 12) : s.stack[k]? = some (s.stackEntry k) := by
  rw [State.stackEntry, dif_pos hk, Vector.getElem?_eq_getElem hk]

/-- A 12-bit and an 8-bit number have a sum below 65536, so the 16-bit addition is exact (R107). -/
theorem toNat_zextAddr_add_zextByte (nnn : Addr) (b : Byte) : (zextAddr nnn + zextByte b).toNat = nnn.toNat + b.toNat := by
  unfold zextAddr zextByte
  bv_omega

/-! ### The instructions as updates -/

/-- R100 -/
theorem exec_ret_of_pos {s : State} (hpos : 0 < s.sp) : exec .ret s = .next s.popPc :=
  if_neg hpos.ne'

/-- R162 -/
theorem exec_ret_of_empty {s : State} (hempty : s.sp = 0) : exec .ret s = raiseBy .ret .stackUnderflow s :=
  if_pos hempty

/-- R103 -/
theorem exec_skipEqImm (x : RegIdx) (kk : Byte) (s : State) :
    exec (.skipEqImm x kk) s = .next (s.setPc (if s.reg x = kk then s.pc + 2 else s.pc)) := by
  simp [exec, execSkipEqImm]

/-- R104 -/
theorem exec_skipNeImm (x : RegIdx) (kk : Byte) (s : State) :
    exec (.skipNeImm x kk) s = .next (s.setPc (if s.reg x = kk then s.pc else s.pc + 2)) := by
  simp [exec, execSkipNeImm]

/-- R105 -/
theorem exec_skipEqReg (x y : RegIdx) (s : State) :
    exec (.skipEqReg x y) s = .next (s.setPc (if s.reg x = s.reg y then s.pc + 2 else s.pc)) := by
  simp [exec, execSkipEqReg]

/-- R106 -/
theorem exec_skipNeReg (x y : RegIdx) (s : State) :
    exec (.skipNeReg x y) s = .next (s.setPc (if s.reg x = s.reg y then s.pc else s.pc + 2)) := by
  simp [exec, execSkipNeReg]

/-- R107 -/
theorem exec_jumpWithOffset (nnn : Addr) (s : State) :
    exec (.jumpWithOffset nnn) s = .next (s.setPc (zextAddr nnn + zextByte (s.reg 0))) := rfl

end Sys2Proof.Machine

namespace Sys2Proof
open Sys2Proof.Machine

/-! ### The obligations -/

/-- Settles O9: with an entry on the stack `return` is `popPc`, without one it raises `StackUnderflow`. -/
theorem returnPopsThePc : Obligations.ReturnPopsThePc := by
  unfold Obligations.ReturnPopsThePc
  refine ⟨decodeWord_encode .ret, fun s hpos hdepth => ?_, fun s hempty => ?_⟩
  · exact ⟨s.popPc, exec_ret_of_pos hpos, rfl, s.stack_getElem?_eq_stackEntry (by omega), rfl, onlyStackAndPc_popPc s⟩
  · exact exec_ret_of_empty hempty ▸ raiseBy_failsWith .ret .stackUnderflow s

/-- Settles O13: either skip is one write of `PC`, whose value the comparison with `kk` picks. -/
theorem immediateSkipsCompareWithKK : Obligations.ImmediateSkipsCompareWithKK := by
  unfold Obligations.ImmediateSkipsCompareWithKK
  intro x kk
  refine ⟨decodeWord_encode (.skipEqImm x kk), decodeWord_encode (.skipNeImm x kk), fun s => ⟨?_, ?_⟩⟩
  · exact ⟨_, exec_skipEqImm x kk s, rfl, onlyPc_setPc s _⟩
  · exact ⟨_, exec_skipNeImm x kk s, rfl, onlyPc_setPc s _⟩

/-- Settles O14: either skip is one write of `PC`, whose value the comparison of the two registers picks. -/
theorem registerSkipsCompareTwoRegisters : Obligations.RegisterSkipsCompareTwoRegisters := by
  unfold Obligations.RegisterSkipsCompareTwoRegisters
  intro x y
  refine ⟨decodeWord_encode (.skipEqReg x y), decodeWord_encode (.skipNeReg x y), fun s => ⟨?_, ?_⟩⟩
  · exact ⟨_, exec_skipEqReg x y s, rfl, onlyPc_setPc s _⟩
  · exact ⟨_, exec_skipNeReg x y s, rfl, onlyPc_setPc s _⟩

/-- Settles O15: the jump is one write of `PC`, of a sum that does not wrap. -/
theorem jumpWithOffsetAddsV0 : Obligations.JumpWithOffsetAddsV0 := by
  unfold Obligations.JumpWithOffsetAddsV0
  refine fun nnn => ⟨decodeWord_encode (.jumpWithOffset nnn), fun s => ?_⟩
  exact ⟨_, exec_jumpWithOffset nnn s, toNat_zextAddr_add_zextByte nnn (s.reg 0), onlyPc_setPc s _⟩

end Sys2Proof
end

section
/-! Register and arithmetic (42_register_alu.md): what each instruction writes to `V[x]` and `VF`, and that it changes nothing else. -/

namespace Sys2Proof.Machine

/-! ### One register write -/

theorem State.reg_setReg_same (s : State) (x : RegIdx) (b : Byte) : (s.setReg x b).reg x = b := by
  rw [State.reg_setReg, if_pos rfl]

theorem sameRegsBut_setReg (s : State) (x : RegIdx) (b : Byte) : sameRegsBut (· = x) s (s.setReg x b) :=
  fun r hr => (s.reg_setReg x r b).trans (if_neg hr)

theorem onlyRegsAndPc_setReg (s : State) (x : RegIdx) (b : Byte) : onlyRegsAndPc s (s.setReg x b) := by
  unfold onlyRegsAndPc sameMem sameStack sameTimers sameDisplay sameControl
  simp

/-! ### The flag and then the destination (R109) -/

/-- The destination is written last, so it holds the result even when it is `VF` (D6). -/
theorem State.reg_writeFlagThen_dest (s : State) (flag : Byte) (x : RegIdx) (result : Byte) :
    (s.writeFlagThen flag x result).reg x = result :=
  (s.setVf flag).reg_setReg_same x result

/-- Unless the destination is `VF`, the flag stays there. -/
theorem State.reg_writeFlagThen_flag (s : State) (flag : Byte) {x : RegIdx} (result : Byte) (hx : x ≠ 0xF) :
    (s.writeFlagThen flag x result).reg 0xF = flag :=
  calc (s.writeFlagThen flag x result).reg 0xF
      = (s.setVf flag).reg 0xF := sameRegsBut_setReg (s.setVf flag) x result 0xF hx.symm
    _ = flag := s.reg_setReg_same 0xF flag

theorem sameRegsBut_writeFlagThen (s : State) (flag : Byte) (x : RegIdx) (result : Byte) :
    sameRegsBut (fun r => r = x ∨ r = 0xF) s (s.writeFlagThen flag x result) := by
  intro r hr
  obtain ⟨hdest, hflag⟩ := not_or.mp hr
  calc (s.writeFlagThen flag x result).reg r
      = (s.setVf flag).reg r := sameRegsBut_setReg (s.setVf flag) x result r hdest
    _ = s.reg r := sameRegsBut_setReg s 0xF flag r hflag

theorem onlyRegsAndPc_writeFlagThen (s : State) (flag : Byte) (x : RegIdx) (result : Byte) :
    onlyRegsAndPc s (s.writeFlagThen flag x result) := by
  unfold onlyRegsAndPc sameMem sameStack sameTimers sameDisplay sameControl
  simp

/-- The frame that the flag-writing instructions share (R109, R116 to R120). -/
theorem writeFlagThen_frame (s : State) (flag : Byte) (x : RegIdx) (result : Byte) :
    sameRegsBut (fun r => r = x ∨ r = 0xF) s (s.writeFlagThen flag x result) ∧
      (s.writeFlagThen flag x result).pc = s.pc ∧ onlyRegsAndPc s (s.writeFlagThen flag x result) :=
  ⟨sameRegsBut_writeFlagThen s flag x result, rfl, onlyRegsAndPc_writeFlagThen s flag x result⟩

/-! ### The flags and results as numbers -/

/-- R116 -/
theorem carryFlag_eq_ite (vx vy : Byte) : carryFlag vx vy = if 255 < vx.toNat + vy.toNat then 1 else 0 := by
  simp only [carryFlag, flagByte, decide_eq_true_eq]

/-- R117, R119 -/
theorem notBorrowFlag_eq_ite (a b : Byte) : notBorrowFlag a b = if b.toNat ≤ a.toNat then 1 else 0 := by
  simp only [notBorrowFlag, flagByte, decide_eq_true_eq]

theorem toNat_flagByte (b : Bool) : (flagByte b).toNat = b.toNat := by
  cases b with
  | false => rfl
  | true => rfl

/-- R118: bit 0 is the remainder of the halving. -/
theorem toNat_shiftedOutRight (v : Byte) : (shiftedOutRight v).toNat = v.toNat % 2 := by
  rw [shiftedOutRight, toNat_flagByte, BitVec.getLsbD, Nat.toNat_testBit, pow_zero, Nat.div_one]

/-- R120: bit 7 is all that a byte holds from 128 up. -/
theorem toNat_shiftedOutLeft (v : Byte) : (shiftedOutLeft v).toNat = v.toNat / 128 := by
  rw [shiftedOutLeft, toNat_flagByte, BitVec.getLsbD, Nat.toNat_testBit]
  omega

/-- R118 -/
theorem toNat_ushiftRight_one (v : Byte) : (v >>> 1).toNat = v.toNat / 2 := by
  rw [BitVec.toNat_ushiftRight, Nat.shiftRight_one]

/-- R120 -/
theorem toNat_shiftLeft_one (v : Byte) : (v <<< 1).toNat = v.toNat * 2 % 256 := by
  rw [BitVec.toNat_shiftLeft, Nat.shiftLeft_eq]

/-- A difference of bytes is the integer difference modulo 256, a negative one included (R117, R119). -/
theorem toNat_sub_eq_emod (a b : Byte) : ((a - b).toNat : Int) = (a.toNat - b.toNat : Int) % 256 := by
  rw [BitVec.toNat_sub]
  omega

/-- No bit outside the mask is left (R121). -/
theorem and_and_not_eq_zero (a kk : Byte) : (a &&& kk) &&& ~~~kk = 0 := by
  rw [BitVec.and_assoc, BitVec.and_not_self]
  exact BitVec.and_zero

/-! ### The instructions as updates -/

/-- R110 -/
theorem exec_setImm (x : RegIdx) (kk : Byte) (s : State) : exec (.setImm x kk) s = .next (s.setReg x kk) := rfl

/-- R111 -/
theorem exec_addImm (x : RegIdx) (kk : Byte) (s : State) :
    exec (.addImm x kk) s = .next (s.setReg x (s.reg x + kk)) := rfl

/-- R112 -/
theorem exec_setReg (x y : RegIdx) (s : State) : exec (.setReg x y) s = .next (s.setReg x (s.reg y)) := rfl

/-- R113 -/
theorem exec_orReg (x y : RegIdx) (s : State) :
    exec (.orReg x y) s = .next (s.setReg x (s.reg x ||| s.reg y)) := rfl

/-- R114 -/
theorem exec_andReg (x y : RegIdx) (s : State) :
    exec (.andReg x y) s = .next (s.setReg x (s.reg x &&& s.reg y)) := rfl

/-- R115 -/
theorem exec_xorReg (x y : RegIdx) (s : State) :
    exec (.xorReg x y) s = .next (s.setReg x (s.reg x ^^^ s.reg y)) := rfl

/-- R116 -/
theorem exec_addReg (x y : RegIdx) (s : State) :
    exec (.addReg x y) s = .next (s.writeFlagThen (carryFlag (s.reg x) (s.reg y)) x (s.reg x + s.reg y)) := rfl

/-- R117 -/
theorem exec_subReg (x y : RegIdx) (s : State) :
    exec (.subReg x y) s = .next (s.writeFlagThen (notBorrowFlag (s.reg x) (s.reg y)) x (s.reg x - s.reg y)) := rfl

/-- R118 -/
theorem exec_shiftRight (x y : RegIdx) (s : State) :
    exec (.shiftRight x y) s = .next (s.writeFlagThen (shiftedOutRight (s.reg y)) x (s.reg y >>> 1)) := rfl

/-- R119 -/
theorem exec_subRegReverse (x y : RegIdx) (s : State) :
    exec (.subRegReverse x y) s =
      .next (s.writeFlagThen (notBorrowFlag (s.reg y) (s.reg x)) x (s.reg y - s.reg x)) := rfl

/-- R120 -/
theorem exec_shiftLeft (x y : RegIdx) (s : State) :
    exec (.shiftLeft x y) s = .next (s.writeFlagThen (shiftedOutLeft (s.reg y)) x (s.reg y <<< 1)) := rfl

/-- R121 -/
theorem exec_randomAnd (x : RegIdx) (kk : Byte) (s : State) :
    exec (.randomAnd x kk) s = .next (s.rand8.2.setReg x (Config.rand8 s.draws &&& kk)) := rfl

end Sys2Proof.Machine

namespace Sys2Proof
open Sys2Proof.Machine

/-! ### The obligations -/

/-- Settles O19: each is one register write, of the bitwise operation whose bits the library gives. -/
theorem logicOpsCombineBitwise : Obligations.LogicOpsCombineBitwise := by
  unfold Obligations.LogicOpsCombineBitwise
  intro x y
  refine ⟨decodeWord_encode (.orReg x y), decodeWord_encode (.andReg x y), decodeWord_encode (.xorReg x y),
    fun s => ⟨?_, ?_, ?_⟩⟩
  · refine ⟨_, exec_orReg x y s, fun b => ?_, sameRegsBut_setReg s x _, rfl, onlyRegsAndPc_setReg s x _⟩
    rw [State.reg_setReg_same, BitVec.getLsbD_or]
  · refine ⟨_, exec_andReg x y s, fun b => ?_, sameRegsBut_setReg s x _, rfl, onlyRegsAndPc_setReg s x _⟩
    rw [State.reg_setReg_same, BitVec.getLsbD_and]
  · refine ⟨_, exec_xorReg x y s, fun b => ?_, sameRegsBut_setReg s x _, rfl, onlyRegsAndPc_setReg s x _⟩
    rw [State.reg_setReg_same, BitVec.getLsbD_xor]

/-- Settles O20: a flag write and then a result write, of the carry and the 8-bit sum. -/
theorem addRegSetsCarry : Obligations.AddRegSetsCarry := by
  unfold Obligations.AddRegSetsCarry
  refine fun x y => ⟨decodeWord_encode (.addReg x y), fun s => ?_⟩
  refine ⟨_, exec_addReg x y s, ?_, fun hx => ?_, writeFlagThen_frame s _ x _⟩
  · rw [State.reg_writeFlagThen_dest, BitVec.toNat_add]
  · rw [State.reg_writeFlagThen_flag s _ _ hx, carryFlag_eq_ite]

/-- Settles O21: a flag write and then a result write, of the not-borrow and the 8-bit difference. -/
theorem subRegSetsNotBorrow : Obligations.SubRegSetsNotBorrow := by
  unfold Obligations.SubRegSetsNotBorrow
  refine fun x y => ⟨decodeWord_encode (.subReg x y), fun s => ?_⟩
  refine ⟨_, exec_subReg x y s, ?_, fun hx => ?_, writeFlagThen_frame s _ x _⟩
  · rw [State.reg_writeFlagThen_dest, toNat_sub_eq_emod]
  · rw [State.reg_writeFlagThen_flag s _ _ hx, notBorrowFlag_eq_ite]

/-- Settles O22: a flag write and then a result write, of bit 0 and the halved byte. -/
theorem shiftRightShiftsTheYRegister : Obligations.ShiftRightShiftsTheYRegister := by
  unfold Obligations.ShiftRightShiftsTheYRegister
  refine fun x y => ⟨decodeWord_encode (.shiftRight x y), fun s => ?_⟩
  refine ⟨_, exec_shiftRight x y s, ?_, fun hx => ?_, writeFlagThen_frame s _ x _⟩
  · rw [State.reg_writeFlagThen_dest, toNat_ushiftRight_one]
  · rw [State.reg_writeFlagThen_flag s _ _ hx, toNat_shiftedOutRight]

/-- Settles O23: as O21 with the operands exchanged. -/
theorem subRegReverseSetsNotBorrow : Obligations.SubRegReverseSetsNotBorrow := by
  unfold Obligations.SubRegReverseSetsNotBorrow
  refine fun x y => ⟨decodeWord_encode (.subRegReverse x y), fun s => ?_⟩
  refine ⟨_, exec_subRegReverse x y s, ?_, fun hx => ?_, writeFlagThen_frame s _ x _⟩
  · rw [State.reg_writeFlagThen_dest, toNat_sub_eq_emod]
  · rw [State.reg_writeFlagThen_flag s _ _ hx, notBorrowFlag_eq_ite]

/-- Settles O24: a flag write and then a result write, of bit 7 and the doubled byte. -/
theorem shiftLeftShiftsTheYRegister : Obligations.ShiftLeftShiftsTheYRegister := by
  unfold Obligations.ShiftLeftShiftsTheYRegister
  refine fun x y => ⟨decodeWord_encode (.shiftLeft x y), fun s => ?_⟩
  refine ⟨_, exec_shiftLeft x y s, ?_, fun hx => ?_, writeFlagThen_frame s _ x _⟩
  · rw [State.reg_writeFlagThen_dest, toNat_shiftLeft_one]
  · rw [State.reg_writeFlagThen_flag s _ _ hx, toNat_shiftedOutLeft]

/-- Settles O16: one register write. -/
theorem setImmWritesKK : Obligations.SetImmWritesKK := by
  unfold Obligations.SetImmWritesKK
  refine fun x kk => ⟨decodeWord_encode (.setImm x kk), fun s => ?_⟩
  exact ⟨_, exec_setImm x kk s, fun r => s.reg_setReg x r _, rfl, onlyRegsAndPc_setReg s x _⟩

/-- Settles O17: one register write, of the 8-bit sum. -/
theorem addImmWrapsWithoutFlag : Obligations.AddImmWrapsWithoutFlag := by
  unfold Obligations.AddImmWrapsWithoutFlag
  refine fun x kk => ⟨decodeWord_encode (.addImm x kk), fun s => ?_⟩
  refine ⟨_, exec_addImm x kk s, fun r => ?_, rfl, onlyRegsAndPc_setReg s x _⟩
  rw [State.reg_setReg, apply_ite BitVec.toNat, BitVec.toNat_add]

/-- Settles O18: one register write. -/
theorem setRegCopies : Obligations.SetRegCopies := by
  unfold Obligations.SetRegCopies
  refine fun x y => ⟨decodeWord_encode (.setReg x y), fun s => ?_⟩
  exact ⟨_, exec_setReg x y s, fun r => s.reg_setReg x r _, rfl, onlyRegsAndPc_setReg s x _⟩

/-- Settles O25: one register write after the draw, which itself moves nothing but the count of draws. -/
theorem randomAndMasksADraw : Obligations.RandomAndMasksADraw := by
  unfold Obligations.RandomAndMasksADraw
  refine fun x kk => ⟨decodeWord_encode (.randomAnd x kk), fun s => ?_⟩
  refine ⟨_, exec_randomAnd x kk s, fun r => s.rand8.2.reg_setReg x r _, ?_, rfl, rfl, onlyRegsAndPc_setReg s x _⟩
  rw [State.reg_setReg_same, and_and_not_eq_zero]

end Sys2Proof
end

section
/-! Index register and memory (43_index_memory.md): what each instruction makes of `I`, memory and the registers, and that it changes nothing else. -/

namespace Sys2Proof.Machine

/-! ### What the updates leave unchanged -/

theorem onlyIndexAndPc_setI (s : State) (w : Word) : onlyIndexAndPc s (s.setI w) := by
  unfold onlyIndexAndPc sameRegs sameMem sameStack sameTimers sameDisplay sameControl
  simp

theorem onlyMemAndPc_storeAtI (s : State) (bs : List Byte) : onlyMemAndPc s (s.storeAtI bs) := by
  unfold onlyMemAndPc sameRegs sameStack sameTimers sameDisplay sameControl
  simp

theorem State.loadFromI_pc (s : State) (k : Nat) : (s.loadFromI k).pc = s.pc := by
  rw [s.loadFromI_eq k]

theorem onlyRegsAndPc_loadFromI (s : State) (k : Nat) : onlyRegsAndPc s (s.loadFromI k) := by
  rw [s.loadFromI_eq k]
  exact ⟨rfl, fun _ => rfl, ⟨rfl, rfl⟩, ⟨rfl, rfl⟩, rfl, ⟨fun _ _ => rfl, rfl⟩, rfl, rfl, rfl⟩

/-! ### The values of `I` as numbers -/

/-- R130 -/
theorem toNat_zextAddr (nnn : Addr) : (zextAddr nnn).toNat = nnn.toNat :=
  BitVec.toNat_setWidth_of_le (by decide)

theorem toNat_zextByte (b : Byte) : (zextByte b).toNat = b.toNat :=
  BitVec.toNat_setWidth_of_le (by decide)

/-- R131: the sum wraps (D12). -/
theorem toNat_add_zextByte (w : Word) (b : Byte) : (w + zextByte b).toNat = (w.toNat + b.toNat) % 65536 := by
  rw [BitVec.toNat_add, toNat_zextByte]

/-- R132: five times a byte is at most 1275, so the product does not wrap, for a value above 15 either (D11). -/
theorem toNat_zextByte_mul_five (b : Byte) : (zextByte b * 5).toNat = b.toNat * 5 := by
  rw [BitVec.toNat_mul, toNat_zextByte]
  change b.toNat * 5 % 65536 = b.toNat * 5
  omega

/-! ### The blocks stored -/

/-- Each decimal digit fits its byte, so the three bytes at `I` are the digits as numbers (R133). -/
theorem State.toNat_readByte_storeAtI_bcdDigits (s : State) (v : Byte) (hfit : s.i.toNat + 2 < 4096) :
    ((s.storeAtI (bcdDigits v)).readByte s.i.toNat).toNat = v.toNat / 100 ∧
      ((s.storeAtI (bcdDigits v)).readByte (s.i.toNat + 1)).toNat = v.toNat / 10 % 10 ∧
      ((s.storeAtI (bcdDigits v)).readByte (s.i.toNat + 2)).toNat = v.toNat % 10 := by
  have hread (k : Nat) (hk : k < 3) : (s.storeAtI (bcdDigits v)).readByte (s.i.toNat + k) = (bcdDigits v)[k] :=
    s.readByte_storeAtI_at (bcdDigits v) k hk hfit
  refine ⟨(congrArg BitVec.toNat (hread 0 (by decide))).trans ?_, (congrArg BitVec.toNat (hread 1 (by decide))).trans ?_,
    (congrArg BitVec.toNat (hread 2 (by decide))).trans ?_⟩
  all_goals exact Nat.mod_eq_of_lt (by omega)

/-- Register `k` up to `x` is stored at `I + k` (R134). -/
theorem State.readByte_storeAtI_regsUpTo (s : State) {x k : RegIdx} (hk : k.toNat ≤ x.toNat)
    (hfit : s.i.toNat + x.toNat < 4096) : (s.storeAtI (s.regsUpTo x)).readByte (s.i.toNat + k.toNat) = s.reg k := by
  have hlen : k.toNat < (s.regsUpTo x).length := by rw [State.length_regsUpTo]; omega
  rw [s.readByte_storeAtI_at _ _ hlen (by rw [State.length_regsUpTo]; omega), State.getElem_regsUpTo]

/-! ### The instructions as updates -/

/-- R130 -/
theorem exec_setIndex (nnn : Addr) (s : State) : exec (.setIndex nnn) s = .next (s.setI (zextAddr nnn)) := rfl

/-- R131 -/
theorem exec_addToIndex (x : RegIdx) (s : State) :
    exec (.addToIndex x) s = .next (s.setI (s.i + zextByte (s.reg x))) := rfl

/-- R132 -/
theorem exec_setIndexToGlyph (x : RegIdx) (s : State) :
    exec (.setIndexToGlyph x) s = .next (s.setI (zextByte (s.reg x) * 5)) := rfl

section
variable {x : RegIdx} {s : State}

/-- R133 -/
theorem exec_storeBcd_of_fits (hfit : s.i.toNat + 2 < 4096) :
    exec (.storeBcd x) s = .next (s.storeAtI (bcdDigits (s.reg x))) :=
  if_pos hfit

/-- R164 -/
theorem exec_storeBcd_of_outOfBounds (hout : 4096 ≤ s.i.toNat + 2) :
    exec (.storeBcd x) s = raiseBy (.storeBcd x) .memoryAccessOutOfBounds s :=
  if_neg hout.not_gt

/-- R134 -/
theorem exec_storeRegisters_of_fits (hfit : s.i.toNat + x.toNat < 4096) :
    exec (.storeRegisters x) s = .next (s.storeAtI (s.regsUpTo x)) :=
  if_pos hfit

/-- R164 -/
theorem exec_storeRegisters_of_outOfBounds (hout : 4096 ≤ s.i.toNat + x.toNat) :
    exec (.storeRegisters x) s = raiseBy (.storeRegisters x) .memoryAccessOutOfBounds s :=
  if_neg hout.not_gt

/-- R135 -/
theorem exec_loadRegisters_of_fits (hfit : s.i.toNat + x.toNat < 4096) :
    exec (.loadRegisters x) s = .next (s.loadFromI (x.toNat + 1)) :=
  if_pos hfit

/-- R164 -/
theorem exec_loadRegisters_of_outOfBounds (hout : 4096 ≤ s.i.toNat + x.toNat) :
    exec (.loadRegisters x) s = raiseBy (.loadRegisters x) .memoryAccessOutOfBounds s :=
  if_neg hout.not_gt

end

end Sys2Proof.Machine

namespace Sys2Proof
open Sys2Proof.Machine

/-! ### The obligations -/

/-- Settles O26: each is one write of `I`, of the address, the wrapping sum or the product that does not wrap. -/
theorem indexWritersSetI : Obligations.IndexWritersSetI := by
  unfold Obligations.IndexWritersSetI
  intro nnn x
  refine ⟨decodeWord_encode (.setIndex nnn), decodeWord_encode (.addToIndex x), decodeWord_encode (.setIndexToGlyph x),
    fun s => ⟨?_, ?_, ?_⟩⟩
  · exact ⟨_, exec_setIndex nnn s, toNat_zextAddr nnn, rfl, onlyIndexAndPc_setI s _⟩
  · exact ⟨_, exec_addToIndex x s, toNat_add_zextByte s.i (s.reg x), rfl, onlyIndexAndPc_setI s _⟩
  · exact ⟨_, exec_setIndexToGlyph x s, toNat_zextByte_mul_five (s.reg x), rfl, onlyIndexAndPc_setI s _⟩

/-- Settles O27: within memory one block of three digits is stored at `I`, past it the check raises before any write. -/
theorem storeBcdWritesThreeDigits : Obligations.StoreBcdWritesThreeDigits := by
  unfold Obligations.StoreBcdWritesThreeDigits
  refine fun x => ⟨decodeWord_encode (.storeBcd x), fun s hfit => ?_, fun s hout => ?_⟩
  · obtain ⟨hhundreds, htens, hunits⟩ := s.toNat_readByte_storeAtI_bcdDigits (s.reg x) hfit
    exact ⟨_, exec_storeBcd_of_fits hfit, hhundreds, htens, hunits,
      fun a ha => s.readByte_storeAtI_outside (bcdDigits (s.reg x)) a hfit ha, rfl, onlyMemAndPc_storeAtI s _⟩
  · exact exec_storeBcd_of_outOfBounds hout ▸ raiseBy_failsWith (.storeBcd x) .memoryAccessOutOfBounds s

/-- Settles O28: within memory `V[0]` to `V[x]` are stored as one block at `I`, past it the check raises before any write. -/
theorem storeRegistersWritesV0ToVx : Obligations.StoreRegistersWritesV0ToVx := by
  unfold Obligations.StoreRegistersWritesV0ToVx
  refine fun x => ⟨decodeWord_encode (.storeRegisters x), fun s hfit => ?_, fun s hout => ?_⟩
  · refine ⟨_, exec_storeRegisters_of_fits hfit, fun k hk => s.readByte_storeAtI_regsUpTo hk hfit, fun a ha => ?_, rfl,
      onlyMemAndPc_storeAtI s _⟩
    exact s.readByte_storeAtI_outside _ a (by rw [State.length_regsUpTo]; omega) (by rw [State.length_regsUpTo]; omega)
  · exact exec_storeRegisters_of_outOfBounds hout ▸ raiseBy_failsWith (.storeRegisters x) .memoryAccessOutOfBounds s

/-- Settles O29: within memory `x + 1` registers are loaded from `I`, past it the check raises before any read. -/
theorem loadRegistersReadsV0ToVx : Obligations.LoadRegistersReadsV0ToVx := by
  unfold Obligations.LoadRegistersReadsV0ToVx
  refine fun x => ⟨decodeWord_encode (.loadRegisters x), fun s hfit => ?_, fun s hout => ?_⟩
  · refine ⟨_, exec_loadRegisters_of_fits hfit, fun k => ?_, s.loadFromI_pc _, onlyRegsAndPc_loadFromI s _⟩
    simp only [s.reg_loadFromI (x.toNat + 1) x.isLt, Nat.lt_succ_iff]
  · exact exec_loadRegisters_of_outOfBounds hout ▸ raiseBy_failsWith (.loadRegisters x) .memoryAccessOutOfBounds s

end Sys2Proof
end

section
/-! Display (44_display.md): what clear-display makes of the framebuffer and the dirty flag, and that it changes nothing else. -/

namespace Sys2Proof.Machine

/-! ### What a new framebuffer leaves unchanged -/

theorem sameRegs_present (s : State) (fb : Framebuffer) : sameRegs s (s.present fb) :=
  fun r => s.present_reg fb r

theorem onlyDisplayVfAndPc_present (s : State) (fb : Framebuffer) : onlyDisplayVfAndPc s (s.present fb) := by
  unfold onlyDisplayVfAndPc sameRegsBut sameMem sameStack sameTimers sameControl
  simp

/-! ### The instruction as an update -/

/-- R140 -/
theorem exec_clearDisplay (s : State) : exec .clearDisplay s = .next (s.present clearedFb) := rfl

end Sys2Proof.Machine

namespace Sys2Proof
open Sys2Proof.Machine

/-! ### The obligation -/

/-- Settles O30: the cleared framebuffer replaces whatever framebuffer stood there, and that sets `DIRTY`. -/
theorem clearDisplayTurnsEveryCellOff : Obligations.ClearDisplayTurnsEveryCellOff := by
  unfold Obligations.ClearDisplayTurnsEveryCellOff
  refine ⟨decodeWord_encode .clearDisplay, fun s => ?_⟩
  exact ⟨_, exec_clearDisplay s, cellOf_clearedFb, s.present_dirty _, s.present_pc _, sameRegs_present s _,
    onlyDisplayVfAndPc_present s _⟩

end Sys2Proof
end

section
/-! Keypad and timers (45_keypad_timers.md): what each instruction makes of `PC`, `V[x]` and the timers, and that it changes nothing else. -/

namespace Sys2Proof.Machine

/-! ### The latches, by number and by key index -/

theorem State.key_getElem?_toNat (s : State) (k : KeyIdx) : s.key[k.toNat]? = some (s.keyDown k) :=
  Vector.getElem?_eq_getElem k.isLt

/-- Whatever number has a latch is a key index (R18). -/
theorem State.exists_keyDown_of_getElem? {s : State} {n : Nat} {pressed : Bool} (h : s.key[n]? = some pressed) :
    ∃ k : KeyIdx, k.toNat = n ∧ s.keyDown k = pressed := by
  obtain ⟨hn, hlatch⟩ := Vector.getElem?_eq_some_iff.mp h
  exact ⟨BitVec.ofNatLT n hn, rfl, hlatch⟩

theorem State.keyDown_of_getElem? {s : State} {k : KeyIdx} {pressed : Bool} (h : s.key[k.toNat]? = some pressed) :
    s.keyDown k = pressed :=
  Option.some.inj ((s.key_getElem?_toNat k).symm.trans h)

/-- Only bits above the fourth are dropped, so a register that holds a key index selects it (R150). -/
theorem State.keyOfReg_eq {s : State} {x : RegIdx} {k : KeyIdx} (hk : k.toNat = (s.reg x).toNat) : s.keyOfReg x = k := by
  unfold State.keyOfReg
  bv_omega

/-! ### What a timer write leaves unchanged -/

theorem onlyTimersAndPc_setDt (s : State) (b : Byte) : onlyTimersAndPc s (s.setDt b) := by
  unfold onlyTimersAndPc sameRegs sameMem sameStack sameDisplay sameControl
  simp

theorem onlyTimersAndPc_setSt (s : State) (b : Byte) : onlyTimersAndPc s (s.setSt b) := by
  unfold onlyTimersAndPc sameRegs sameMem sameStack sameDisplay sameControl
  simp

/-! ### The instructions as updates -/

section
variable {x : RegIdx} {k : KeyIdx} {s : State}

/-- R150 -/
theorem exec_skipIfKeyPressed_of_key (hk : k.toNat = (s.reg x).toNat) :
    exec (.skipIfKeyPressed x) s = .next (s.setPc (if s.keyDown k then s.pc + 2 else s.pc)) := by
  have hrange : (s.reg x).toNat ≤ 15 := hk ▸ Nat.le_of_lt_succ k.isLt
  calc exec (.skipIfKeyPressed x) s
      = .next (s.skipIf (s.keyDown (s.keyOfReg x))) := if_pos hrange
    _ = .next (s.setPc (if s.keyDown k then s.pc + 2 else s.pc)) := by rw [State.keyOfReg_eq hk, State.skipIf_eq]

/-- R151 -/
theorem exec_skipIfKeyNotPressed_of_key (hk : k.toNat = (s.reg x).toNat) :
    exec (.skipIfKeyNotPressed x) s = .next (s.setPc (if s.keyDown k then s.pc else s.pc + 2)) := by
  have hrange : (s.reg x).toNat ≤ 15 := hk ▸ Nat.le_of_lt_succ k.isLt
  calc exec (.skipIfKeyNotPressed x) s
      = .next (s.skipIf (!s.keyDown (s.keyOfReg x))) := if_pos hrange
    _ = .next (s.setPc (if s.keyDown k then s.pc else s.pc + 2)) := by
      rw [State.keyOfReg_eq hk, State.skipIf_eq]
      cases s.keyDown k with
      | false => rfl
      | true => rfl

/-- R168 -/
theorem exec_skipIfKeyPressed_of_outOfRange (hout : 15 < (s.reg x).toNat) :
    exec (.skipIfKeyPressed x) s = .fault (.keyIndexOutOfRange (s.pc - 2)) :=
  if_neg hout.not_ge

/-- R168 -/
theorem exec_skipIfKeyNotPressed_of_outOfRange (hout : 15 < (s.reg x).toNat) :
    exec (.skipIfKeyNotPressed x) s = .fault (.keyIndexOutOfRange (s.pc - 2)) :=
  if_neg hout.not_ge

/-- R153, some key pressed. -/
theorem exec_waitForKey_of_pressed (hpressed : s.keyDown k = true)
    (hlowest : ∀ j : KeyIdx, j.toNat < k.toNat → s.keyDown j = false) :
    exec (.waitForKey x) s = .next (s.setReg x (k.setWidth 8)) := by
  change execWaitForKey x s = _
  rw [execWaitForKey, (s.lowestKey_eq_some k).mpr ⟨hpressed, hlowest⟩]

/-- R153, no key pressed. -/
theorem exec_waitForKey_of_none (hnone : ∀ j, s.keyDown j = false) :
    exec (.waitForKey x) s = .next (s.setPc (s.pc - 2)) := by
  change execWaitForKey x s = _
  rw [execWaitForKey, s.lowestKey_eq_none.mpr hnone]

end

/-- R152 -/
theorem exec_getDelayTimer (x : RegIdx) (s : State) : exec (.getDelayTimer x) s = .next (s.setReg x s.dt) := rfl

/-- R154 -/
theorem exec_setDelayTimer (x : RegIdx) (s : State) : exec (.setDelayTimer x) s = .next (s.setDt (s.reg x)) := rfl

/-- R155 -/
theorem exec_setSoundTimer (x : RegIdx) (s : State) : exec (.setSoundTimer x) s = .next (s.setSt (s.reg x)) := rfl

end Sys2Proof.Machine

namespace Sys2Proof
open Sys2Proof.Machine

/-! ### The obligations -/

/-- Settles O35: the scan finds the lowest pressed key, which is one register write, or none, which is one write of `PC`. -/
theorem waitForKeyTakesTheLowestKey : Obligations.WaitForKeyTakesTheLowestKey := by
  unfold Obligations.WaitForKeyTakesTheLowestKey
  refine fun x => ⟨decodeWord_encode (.waitForKey x), fun s n hpressed hlower => ?_, fun s hnone => ?_⟩
  · obtain ⟨k, rfl, hdown⟩ := State.exists_keyDown_of_getElem? hpressed
    refine ⟨_, exec_waitForKey_of_pressed hdown fun j hj => State.keyDown_of_getElem? (hlower j.toNat hj), ?_,
      sameRegsBut_setReg s x _, rfl, onlyRegsAndPc_setReg s x _⟩
    rw [State.reg_setReg_same, BitVec.toNat_setWidth_of_le (by decide)]
  · exact ⟨_, exec_waitForKey_of_none fun j => State.keyDown_of_getElem? (hnone j.toNat j.isLt), rfl, onlyPc_setPc s _⟩

/-- Settles O33: a register with a latch holds a key index, and either skip is one write of `PC`, whose value that latch picks. -/
theorem keySkipsTestTheLatch : Obligations.KeySkipsTestTheLatch := by
  unfold Obligations.KeySkipsTestTheLatch
  refine fun x => ⟨decodeWord_encode (.skipIfKeyPressed x), decodeWord_encode (.skipIfKeyNotPressed x),
    fun s pressed hlatch => ?_, fun s hout => ?_⟩
  · obtain ⟨k, hk, rfl⟩ := State.exists_keyDown_of_getElem? hlatch
    exact ⟨⟨_, exec_skipIfKeyPressed_of_key hk, rfl, onlyPc_setPc s _⟩,
      ⟨_, exec_skipIfKeyNotPressed_of_key hk, rfl, onlyPc_setPc s _⟩⟩
  · exact ⟨exec_skipIfKeyPressed_of_outOfRange hout, exec_skipIfKeyNotPressed_of_outOfRange hout⟩

/-- Settles O34: one register write. -/
theorem getDelayTimerReadsDt : Obligations.GetDelayTimerReadsDt := by
  unfold Obligations.GetDelayTimerReadsDt
  refine fun x => ⟨decodeWord_encode (.getDelayTimer x), fun s => ?_⟩
  exact ⟨_, exec_getDelayTimer x s, fun r => s.reg_setReg x r _, rfl, onlyRegsAndPc_setReg s x _⟩

/-- Settles O36: each is one write of one timer. -/
theorem timerSettersCopyTheRegister : Obligations.TimerSettersCopyTheRegister := by
  unfold Obligations.TimerSettersCopyTheRegister
  refine fun x => ⟨decodeWord_encode (.setDelayTimer x), decodeWord_encode (.setSoundTimer x), fun s => ⟨?_, ?_⟩⟩
  · exact ⟨_, exec_setDelayTimer x s, s.setDt_dt _, s.setDt_st _, s.setDt_pc _, onlyTimersAndPc_setDt s _⟩
  · exact ⟨_, exec_setSoundTimer x s, s.setSt_st _, s.setSt_dt _, s.setSt_pc _, onlyTimersAndPc_setSt s _⟩

end Sys2Proof
end

section
/-! Exceptions (60_exceptions.md): which steps have no next state, what a fatal error records, and the host's timer, framebuffer and dirty flag ports. -/

namespace Sys2Proof
open Sys2Proof.Machine

/-! ### What a completed instruction leaves in the timers and the dirty flag -/

/-- `DT` after `i` completes: one instruction sets it (R154). -/
def Instr.nextDt (s : State) : Instr → Byte
  | .setDelayTimer x => s.reg x
  | _ => s.dt

/-- `ST` after `i` completes: one instruction sets it (R155). -/
def Instr.nextSt (s : State) : Instr → Byte
  | .setSoundTimer x => s.reg x
  | _ => s.st

/-- `DIRTY` after `i` completes: the two drawing instructions set it (R22). -/
def Instr.nextDirty (s : State) : Instr → Bool
  | .clearDisplay => true
  | .drawSprite _ _ _ => true
  | _ => s.dirty

theorem Instr.nextDt_cases (s : State) (i : Instr) :
    i.nextDt s = s.dt ∨ ∃ x, i = .setDelayTimer x ∧ i.nextDt s = s.reg x := by
  cases i with
  | setDelayTimer x => exact .inr ⟨x, rfl, rfl⟩
  | _ => exact .inl rfl

theorem Instr.nextSt_cases (s : State) (i : Instr) :
    i.nextSt s = s.st ∨ ∃ x, i = .setSoundTimer x ∧ i.nextSt s = s.reg x := by
  cases i with
  | setSoundTimer x => exact .inr ⟨x, rfl, rfl⟩
  | _ => exact .inl rfl

theorem Instr.nextDirty_eq (s : State) (i : Instr) :
    i.nextDirty s = (s.dirty || decide (i.mnemonic ∈ ["clear-display", "draw-sprite"])) := by
  cases i with
  | clearDisplay | drawSprite => exact (Bool.or_true s.dirty).symm
  | _ => exact (Bool.or_false s.dirty).symm

end Sys2Proof

namespace Sys2Proof.Machine

/-! ### What an instruction can do -/

/-- The outcomes that instruction `i` can have in `s`: it acts, it raises a fatal error, or it is a key skip whose register exceeds
15 (R168). -/
inductive ExecOutcome (i : Instr) (s : State) : StepOutcome → Prop
  | acts {t : State} (hdt : t.dt = i.nextDt s) (hst : t.st = i.nextSt s) (hdirty : t.dirty = i.nextDirty s) :
      ExecOutcome i s (.next t)
  | raises (kind : ErrorKind) : ExecOutcome i s (raiseBy i kind s)
  | keyIndex {x : RegIdx} (hskip : i = .skipIfKeyPressed x ∨ i = .skipIfKeyNotPressed x) (hout : 15 < (s.reg x).toNat) :
      ExecOutcome i s (.fault (.keyIndexOutOfRange s.fetchAddr))

section
variable {i : Instr} {s t : State}

theorem ExecOutcome.ite {p : Prop} [Decidable p] {a b : StepOutcome} (ha : p → ExecOutcome i s a)
    (hb : ¬ p → ExecOutcome i s b) : ExecOutcome i s (if p then a else b) := by
  split
  next hp => exact ha hp
  next hp => exact hb hp

/-- A skip writes `PC` alone, taken or not. -/
theorem ExecOutcome.skips (cond : Bool) (hdt : s.dt = i.nextDt s) (hst : s.st = i.nextSt s)
    (hdirty : s.dirty = i.nextDirty s) : ExecOutcome i s (.next (s.skipIf cond)) := by
  rw [State.skipIf_eq]
  exact .acts hdt hst hdirty

/-- R153: one register write, or one write of `PC`. -/
theorem exec_waitForKey_cases (x : RegIdx) (s : State) :
    (∃ b, exec (.waitForKey x) s = .next (s.setReg x b)) ∨ exec (.waitForKey x) s = .next (s.setPc (s.pc - 2)) := by
  cases hkey : s.lowestKey with
  | none => exact .inr (exec_waitForKey_of_none (s.lowestKey_eq_none.mp hkey))
  | some k =>
    obtain ⟨hpressed, hlowest⟩ := (s.lowestKey_eq_some k).mp hkey
    exact .inl ⟨_, exec_waitForKey_of_pressed hpressed hlowest⟩

/-- Said once for all instructions: those without a check act, a check sends the others to act or to raise, and only a key skip can
do neither. -/
theorem execOutcome_exec (i : Instr) (s : State) : ExecOutcome i s (exec i s) := by
  cases i with
  | ret => exact .ite (fun _ => .raises .stackUnderflow) fun _ => .acts rfl rfl rfl
  | call nnn => exact .ite (fun _ => .raises .stackOverflow) fun _ => .acts rfl rfl rfl
  | drawSprite | storeBcd | storeRegisters =>
    exact .ite (fun _ => .acts rfl rfl rfl) fun _ => .raises .memoryAccessOutOfBounds
  | loadRegisters x =>
    refine .ite (fun _ => ?_) fun _ => .raises .memoryAccessOutOfBounds
    rw [s.loadFromI_eq]
    exact .acts rfl rfl rfl
  | skipEqImm | skipNeImm | skipEqReg | skipNeReg => exact .skips _ rfl rfl rfl
  | skipIfKeyPressed x =>
    exact .ite (fun _ => .skips _ rfl rfl rfl) fun hout => .keyIndex (.inl rfl) (Nat.lt_of_not_le hout)
  | skipIfKeyNotPressed x =>
    exact .ite (fun _ => .skips _ rfl rfl rfl) fun hout => .keyIndex (.inr rfl) (Nat.lt_of_not_le hout)
  | waitForKey x =>
    obtain ⟨b, hexec⟩ | hexec := exec_waitForKey_cases x s
    · exact hexec ▸ .acts rfl rfl rfl
    · exact hexec ▸ .acts rfl rfl rfl
  | _ => exact .acts rfl rfl rfl

/-- An instruction that completes neither raised nor faulted, so it acted. -/
theorem next_timers_dirty_of_completes (h : completes (exec i s) t) :
    t.dt = i.nextDt s ∧ t.st = i.nextSt s ∧ t.dirty = i.nextDirty s := by
  have hout := execOutcome_exec i s
  generalize exec i s = o at h hout
  cases hout with
  | acts hdt hst hdirty =>
    cases h.1
    exact ⟨hdt, hst, hdirty⟩
  | raises kind => exact (raiseBy_not_completes i kind s t h).elim
  | keyIndex => cases h.1

/-! ### What a step can do -/

theorem State.canFetch_iff (s : State) : s.canFetch ↔ s.pc.toNat ≤ 0xFFE := by
  rw [State.canFetch, memSize_eq]
  omega

/-- The address recorded by an instruction of a step is the `PC` of that step (R24, R82). -/
theorem State.fetchAddr_advancePc (s : State) : s.advancePc.fetchAddr = s.pc :=
  BitVec.add_sub_cancel s.pc 2

/-- A step that completes passed the fetch bound and decoded, so it is the completed instruction. -/
theorem exists_exec_of_step_completes (h : completes (step s) t) :
    ∃ i, decodeWord s.fetch16 = .ok i ∧ completes (exec i s.advancePc) t := by
  obtain ⟨hnext, halted⟩ := h
  obtain ⟨-, ⟨-, hraise⟩ | ⟨-, i, hdecode, hexec⟩ | ⟨-, e, -, hraise⟩⟩ := step_cases hnext
  · exact (raise_not_completes _ _ _ _ _ ⟨hraise, halted⟩).elim
  · exact ⟨i, hdecode, hexec, halted⟩
  · exact (raise_not_completes _ _ _ _ _ ⟨hraise, halted⟩).elim

/-- R168, by the fetched word. -/
theorem step_keySkip_of_outOfRange {x : RegIdx} (hrun : s.halted = false) (hpc : s.canFetch)
    (hout : 15 < (s.reg x).toNat) (hword : s.fetch16 = 0xE#4 ++ x ++ 0x9E#8 ∨ s.fetch16 = 0xE#4 ++ x ++ 0xA1#8) :
    step s = .fault (.keyIndexOutOfRange s.pc) := by
  rw [← s.fetchAddr_advancePc]
  obtain hword | hword := hword
  · have hdecode : decodeWord s.fetch16 = .ok (.skipIfKeyPressed x) := hword ▸ decodeWord_encode (.skipIfKeyPressed x)
    exact (step_decoded hrun hpc hdecode).trans (exec_skipIfKeyPressed_of_outOfRange hout)
  · have hdecode : decodeWord s.fetch16 = .ok (.skipIfKeyNotPressed x) := hword ▸ decodeWord_encode (.skipIfKeyNotPressed x)
    exact (step_decoded hrun hpc hdecode).trans (exec_skipIfKeyNotPressed_of_outOfRange hout)

/-- A decoded instruction that is entered in a step has a next state, or is a key skip whose register exceeds 15. -/
theorem exec_next_or_keySkip (hdecode : decodeWord s.fetch16 = .ok i) :
    (∃ t, exec i s.advancePc = .next t) ∨
      ∃ x, 15 < (s.reg x).toNat ∧ (s.fetch16 = 0xE#4 ++ x ++ 0x9E#8 ∨ s.fetch16 = 0xE#4 ++ x ++ 0xA1#8) := by
  have hout := execOutcome_exec i s.advancePc
  generalize exec i s.advancePc = o at hout
  cases hout with
  | acts => exact .inl ⟨_, rfl⟩
  | raises => exact .inl ⟨_, rfl⟩
  | keyIndex hskip hout =>
    rw [← encode_of_decodeWord hdecode]
    exact .inr ⟨_, hout, hskip.imp (congrArg encode) (congrArg encode)⟩

end

/-- R163 -/
theorem exec_call_of_full {nnn : Addr} {s : State} (hfull : s.sp = 12) :
    exec (.call nnn) s = raiseBy (.call nnn) .stackOverflow s :=
  if_pos hfull.ge

/-! ### The host operations but reset and step -/

theorem toNat_tickTimer (b : Byte) : (tickTimer b).toNat = b.toNat - 1 := by
  unfold tickTimer
  split
  next hzero => subst hzero; rfl
  next hpos => bv_omega

theorem onlyTimersAndPc_tickTimers (s : State) : onlyTimersAndPc s s.tickTimers := by
  unfold onlyTimersAndPc sameRegs sameMem sameStack sameDisplay sameControl
  simp

theorem performLoad_cases (bytes : List Byte) (s : State) :
    (performLoad bytes s).2 = s.loadImage bytes ∨ (performLoad bytes s).2 = s := by
  unfold performLoad
  split
  · exact .inl rfl
  · exact .inr rfl

/-- The framebuffer is written by no operation but reset and step (R180), `DIRTY` by `clear_dirty` alone (R181), the timers by the
tick alone (R175). -/
theorem perform_fb_dirty_timers {o : Operation} {s t : State} {reply : Reply} (hreset : o ≠ .reset) (hstep : o ≠ .step)
    (h : perform o s = .next (reply, t)) :
    t.fb = s.fb ∧ t.dirty = (if o = .clearDirty then false else s.dirty) ∧ (o = .tickTimers ∨ sameTimers s t) := by
  cases o with
  | reset => exact (hreset rfl).elim
  | step => exact (hstep rfl).elim
  | load bytes =>
    obtain ⟨-, rfl⟩ : _ ∧ (performLoad bytes s).2 = t := Prod.ext_iff.mp (Host.Outcome.next.inj h)
    obtain hload | hload := performLoad_cases bytes s
    all_goals
      rw [hload]
      exact ⟨rfl, rfl, .inr ⟨rfl, rfl⟩⟩
  | tickTimers =>
    cases h
    exact ⟨rfl, rfl, .inl rfl⟩
  | setKey | readFramebuffer | readCell | readDirty | clearDirty =>
    cases h
    exact ⟨rfl, rfl, .inr ⟨rfl, rfl⟩⟩

/-! ### The framebuffer as one row-major list (R20, R180) -/

theorem State.framebufferCells_eq (s : State) : s.framebufferCells = s.fb.flatten.toList := by
  simp [State.framebufferCells, Vector.flatten, Vector.toList, List.flatMap_def, Function.comp_def]

theorem State.length_framebufferCells (s : State) : s.framebufferCells.length = 2048 := by
  rw [State.framebufferCells_eq, Vector.length_toList]

theorem State.framebufferCells_getElem? (s : State) (r : Fin 32) (c : Fin 64) :
    s.framebufferCells[r.val * 64 + c.val]? = some (s.cell r c) := by
  have hplace : r.val * 64 + c.val < 32 * 64 := by omega
  have hrow : (r.val * 64 + c.val) / 64 = r.val := by omega
  have hcol : (r.val * 64 + c.val) % 64 = c.val := by omega
  rw [State.framebufferCells_eq, Vector.getElem?_toList, Vector.getElem?_eq_getElem hplace, Vector.getElem_flatten]
  simp only [hrow, hcol]
  rfl

end Sys2Proof.Machine

namespace Sys2Proof
open Sys2Proof.Machine

/-! ### The obligations -/

/-- Settles O8: past the fetch bound and on an illegal word a step raises, a decoded instruction has a next state but for the key
skips, and these fault by their register. -/
theorem stepStopsOnlyAtAKeyIndexAboveFifteen : Obligations.StepStopsOnlyAtAKeyIndexAboveFifteen := by
  unfold Obligations.StepStopsOnlyAtAKeyIndexAboveFifteen
  refine fun s hrun => ⟨?_, fun x hpc => step_keySkip_of_outOfRange hrun (s.canFetch_iff.mpr hpc)⟩
  by_cases hpc : s.canFetch
  · cases hdecode : decodeWord s.fetch16 with
    | error e => exact .inl ⟨_, step_undecoded hrun hpc hdecode⟩
    | ok i =>
      obtain hnext | ⟨x, hout, hword⟩ := exec_next_or_keySkip hdecode
      · exact .inl (step_decoded hrun hpc hdecode ▸ hnext)
      · exact .inr ⟨x, hout, hword, step_keySkip_of_outOfRange hrun hpc hout hword⟩
  · exact .inl ⟨_, step_outOfBounds hrun hpc⟩

/-- Settles O40: the tick subtracts 1 from each timer down to 0, a completed step is its instruction, and the other operations
leave both timers. -/
theorem tickDecrementsEachTimerToZero : Obligations.TickDecrementsEachTimerToZero := by
  unfold Obligations.TickDecrementsEachTimerToZero
  refine ⟨fun s => ?_, fun s t h => ?_, fun o s t reply ho h => ?_⟩
  · exact ⟨_, rfl, toNat_tickTimer s.dt, toNat_tickTimer s.st, rfl, onlyTimersAndPc_tickTimers s⟩
  · obtain ⟨i, hdecode, hexec⟩ := exists_exec_of_step_completes h
    obtain ⟨hdt, hst, -⟩ := next_timers_dirty_of_completes hexec
    rw [hdt, hst, hdecode]
    refine ⟨(i.nextDt_cases s.advancePc).imp_right ?_, (i.nextSt_cases s.advancePc).imp_right ?_⟩
    · exact fun ⟨x, hi, hx⟩ => ⟨x, congrArg Except.ok hi, hx⟩
    · exact fun ⟨x, hi, hx⟩ => ⟨x, congrArg Except.ok hi, hx⟩
  · simp only [List.mem_cons, List.not_mem_nil, or_false, not_or] at ho
    obtain ⟨htick, hreset, hstep⟩ := ho
    obtain ⟨-, -, htimers⟩ := perform_fb_dirty_timers hreset hstep h
    exact htimers.resolve_left htick

/-- Settles O42: the list read is the framebuffer flattened, and only reset and step write the framebuffer. -/
theorem framebufferPortReadsRowMajor : Obligations.FramebufferPortReadsRowMajor := by
  unfold Obligations.FramebufferPortReadsRowMajor
  refine ⟨fun s => ?_, fun s r c => rfl, fun o s t reply hreset hstep h r c => ?_⟩
  · exact ⟨_, rfl, s.length_framebufferCells, s.framebufferCells_getElem?⟩
  · obtain ⟨hfb, -, -⟩ := perform_fb_dirty_timers hreset hstep h
    exact congrArg (cellOf · r c) hfb

/-- Settles O43: a completed step is its instruction, which sets the flag or leaves it, and of the other operations only
`clear_dirty` and reset write it. -/
theorem dirtyFlagPortReadsAndClears : Obligations.DirtyFlagPortReadsAndClears := by
  unfold Obligations.DirtyFlagPortReadsAndClears
  refine ⟨fun s => rfl, fun s => ⟨s.clearDirty, rfl, rfl, rfl⟩, fun s t i hdecode h => ?_, fun o s t reply hstep h => ?_⟩
  · obtain ⟨j, hj, hexec⟩ := exists_exec_of_step_completes h
    obtain rfl : j = i := Except.ok.inj (hj.symm.trans hdecode)
    obtain ⟨-, -, hdirty⟩ := next_timers_dirty_of_completes hexec
    exact hdirty.trans (j.nextDirty_eq s.advancePc)
  · by_cases hreset : o = .reset
    · subst hreset
      cases h
      rfl
    · obtain ⟨-, hdirty, -⟩ := perform_fb_dirty_timers hreset hstep h
      simp only [hreset, false_or, hdirty]

/-- Settles O5: the entry of this error leaves everything but the latch and the record. -/
theorem fetchPastMemoryIsPcOutOfBounds : Obligations.FetchPastMemoryIsPcOutOfBounds := by
  unfold Obligations.FetchPastMemoryIsPcOutOfBounds
  exact fun s hrun hpc => step_outOfBounds hrun (s.canFetch_iff.not.mpr (by omega))

/-- Settles O6: a word that no row selects does not decode. -/
theorem illegalWordIsUnknownOpcode : Obligations.IllegalWordIsUnknownOpcode := by
  unfold Obligations.IllegalWordIsUnknownOpcode
  intro s hrun hpc hillegal
  rw [step_undecoded hrun (s.canFetch_iff.mpr hpc) (decodeWord_of_not_selects hillegal)]
  exact raise_failsWith .unknownOpcode s.pc (some s.fetch16) s.advancePc

/-- Settles O12: at depth 12 the call raises, and this error leaves the stack and its depth (R167). -/
theorem thirteenthCallOverflows : Obligations.ThirteenthCallOverflows := by
  unfold Obligations.ThirteenthCallOverflows
  exact fun nnn s hfull => ⟨_, exec_call_of_full hfull, rfl, rfl, hfull, rfl⟩

end Sys2Proof
end

section
/-! Reset and load (70_reset_and_hazards.md): what each leaves in every element of the state, and when a load fails. -/

namespace Sys2Proof.Machine

/-! ### The reset contents of memory (R28, R41, R42) -/

theorem Memory.resetByte_of_lt {a : Nat} (h : a < 80) : Memory.resetByte a = Config.glyphTable[a] := dif_pos h

theorem Memory.resetByte_of_ge {a : Nat} (h : 80 ≤ a) : Memory.resetByte a = 0 := dif_neg (Nat.not_lt.mpr h)

/-! ### The state after a reset (R190) -/

section
variable (s : State)

theorem State.reg_resetFrom (r : RegIdx) : s.resetFrom.reg r = 0 := Vector.getElem_replicate _

theorem State.stack_resetFrom_getElem? {k : Nat} (hk : k < 12) : s.resetFrom.stack[k]? = some 0 :=
  Vector.getElem?_replicate.trans (if_pos hk)

theorem State.key_resetFrom_getElem? {k : Nat} (hk : k < 16) : s.resetFrom.key[k]? = some false :=
  Vector.getElem?_replicate.trans (if_pos hk)

theorem State.cell_resetFrom (r : Fin 32) (c : Fin 64) : s.resetFrom.cell r c = false := cellOf_clearedFb r c

theorem State.readByte_resetFrom (a : Nat) : s.resetFrom.readByte a = Memory.resetByte a := rfl

end

/-! ### The state after a load that succeeds (R192) -/

theorem onlyMemAndPc_loadImage (s : State) (bytes : List Byte) : onlyMemAndPc s (s.loadImage bytes) := by
  unfold onlyMemAndPc sameRegs sameStack sameTimers sameDisplay sameControl
  simp

section
variable {bytes : List Byte} (s : State) (hfits : bytes.length ≤ 3584)
include hfits

theorem State.readByte_loadImage_reserved {a : Nat} (ha : a < 0x200) :
    (s.loadImage bytes).readByte a = s.readByte a := by
  unfold State.readByte
  rw [State.loadImage_mem, Memory.read_load s.mem bytes hfits, dif_neg (by omega), if_neg (by omega)]

theorem State.readByte_loadImage_image {j : Nat} (hj : j < bytes.length) :
    (s.loadImage bytes).readByte (0x200 + j) = bytes[j] := by
  unfold State.readByte
  rw [State.loadImage_mem, Memory.read_load s.mem bytes hfits, dif_pos (by omega)]
  simp only [Nat.add_sub_cancel_left]

theorem State.readByte_loadImage_rest {a : Nat} (ha : 0x200 + bytes.length ≤ a) (hmem : a < 4096) :
    (s.loadImage bytes).readByte a = 0 := by
  unfold State.readByte
  rw [State.loadImage_mem, Memory.read_load s.mem bytes hfits, dif_neg (by omega), if_pos (by omega)]

/-! ### When a load succeeds (R193) -/

theorem perform_load_of_fits : perform (.load bytes) s = .next (.success, s.loadImage bytes) :=
  congrArg Host.Outcome.next (if_pos ((imageFits_iff bytes).mpr hfits))

end

theorem perform_load_of_tooLarge {bytes : List Byte} (s : State) (hlarge : 3584 < bytes.length) :
    perform (.load bytes) s = .next (.imageTooLarge, s) :=
  congrArg Host.Outcome.next (if_neg ((imageFits_iff bytes).not.mpr (Nat.not_le.mpr hlarge)))

end Sys2Proof.Machine

namespace Sys2Proof
open Sys2Proof.Machine

/-! ### The obligations -/

/-- Settles O37: the state after a reset takes only the count of draws from the state before, and its memory reads the reset
contents everywhere. -/
theorem resetLeavesTheResetState : Obligations.ResetLeavesTheResetState := by
  unfold Obligations.ResetLeavesTheResetState
  refine fun s => ⟨s.resetFrom, rfl, s.reg_resetFrom, rfl, rfl, rfl, fun k => s.stack_resetFrom_getElem?, rfl, rfl,
    fun k => s.key_resetFrom_getElem?, s.cell_resetFrom, rfl, rfl, rfl, fun a ha => ?_, fun a ha => ?_⟩
  · exact (s.readByte_resetFrom a).trans (Memory.resetByte_of_lt ha)
  · exact (s.readByte_resetFrom a).trans (Memory.resetByte_of_ge ha)

/-- Settles O38: an image that fits is loaded, and each address lies in the reserved region, the image or the rest. -/
theorem loadCopiesTheImageToProgramSpace : Obligations.LoadCopiesTheImageToProgramSpace := by
  unfold Obligations.LoadCopiesTheImageToProgramSpace
  exact fun bytes s hfits => ⟨s.loadImage bytes, perform_load_of_fits s hfits,
    fun a => s.readByte_loadImage_reserved hfits, fun j => s.readByte_loadImage_image hfits,
    fun a => s.readByte_loadImage_rest hfits, s.loadImage_pc bytes, onlyMemAndPc_loadImage s bytes⟩

/-- Settles O39: the check precedes the load, and an image of exactly 3584 bytes passes it. -/
theorem loadFailsExactlyPastCapacity : Obligations.LoadFailsExactlyPastCapacity := by
  unfold Obligations.LoadFailsExactlyPastCapacity
  refine fun bytes s => ⟨perform_load_of_tooLarge s, fun hfits => ⟨_, perform_load_of_fits s hfits⟩, fun hfull => ?_⟩
  exact ⟨_, perform_load_of_fits s hfull.le, fun j => s.readByte_loadImage_image hfull.le⟩

end Sys2Proof
end

section
/-! What each instruction may change and raise (R83 of 40_step_cycle.md, R169 of 60_exceptions.md), and the invariant that every
step and every execution keeps. -/

namespace Sys2Proof
open Sys2Proof.Machine

/-- The one kind of fatal error that an instruction may raise (R169). -/
def Instr.errorKind : Instr → Option ErrorKind
  | .ret => some .stackUnderflow
  | .call _ => some .stackOverflow
  | .drawSprite _ _ _ => some .memoryAccessOutOfBounds
  | .storeBcd _ => some .memoryAccessOutOfBounds
  | .storeRegisters _ => some .memoryAccessOutOfBounds
  | .loadRegisters _ => some .memoryAccessOutOfBounds
  | _ => none

end Sys2Proof

namespace Sys2Proof.Machine

/-! ### What a completed instruction changes -/

/-- The values that an instruction other than `return` may leave in `PC` (R14). -/
inductive PcTarget (s : State) : Word → Prop
  | here : PcTarget s s.pc
  | skip : PcTarget s (s.pc + 2)
  | rewind : PcTarget s (s.pc - 2)
  | jump {w : Word} (hbound : w.toNat ≤ 0x10FE) : PcTarget s w

/-- The states that instruction `i` may leave when it completes in `s`, by the elements of the state that it writes. Which
instruction writes which timer is said by `next_timers_dirty_of_completes`. -/
inductive Acts (i : Instr) (s : State) : State → Prop
  | registers {v : Vector Byte 16} {draws : Nat} (hregs : sameRegsBut i.mayWrite s { s with v := v }) :
      Acts i s { s with v := v, draws := draws }
  | counter {w : Word} (htarget : PcTarget s w) : Acts i s (s.setPc w)
  | index {w : Word} (hname : i.mnemonic ∈ ["set-index", "add-to-index", "set-index-to-glyph"]) : Acts i s (s.setI w)
  | memory {bytes : List Byte} (hname : i.mnemonic ∈ ["store-bcd", "store-registers"]) : Acts i s (s.storeAtI bytes)
  | timers {dt st : Byte} : Acts i s { s with dt := dt, st := st }
  | display {v : Vector Byte 16} {fb : Framebuffer} (hname : i.mnemonic ∈ ["clear-display", "draw-sprite"])
      (hregs : sameRegsBut i.mayWrite s { s with v := v }) : Acts i s { s with v := v, fb := fb, dirty := true }
  | push {nnn : Addr} (hname : i.mnemonic ∈ ["call", "return"]) (hroom : s.sp < 12) :
      Acts i s (s.pushPc.setPc (zextAddr nnn))
  | pop (hname : i.mnemonic ∈ ["call", "return"]) (hlive : 0 < s.sp) : Acts i s s.popPc

/-- The outcomes of instruction `i` in `s`, with what it may change when it acts and what it may raise. -/
inductive ActsOrRaises (i : Instr) (s : State) : StepOutcome → Prop
  | acts {t : State} (h : Acts i s t) : ActsOrRaises i s (.next t)
  | raises {kind : ErrorKind} (h : i.errorKind = some kind) : ActsOrRaises i s (raiseBy i kind s)
  | faults (f : Fault) : ActsOrRaises i s (.fault f)

section
variable {i : Instr} {s t : State}

theorem ActsOrRaises.ite {p : Prop} [Decidable p] {a b : StepOutcome} (ha : p → ActsOrRaises i s a)
    (hb : ¬ p → ActsOrRaises i s b) : ActsOrRaises i s (if p then a else b) := by
  split
  next hp => exact ha hp
  next hp => exact hb hp

theorem Acts.skips (cond : Bool) : Acts i s (s.skipIf cond) := by
  rw [State.skipIf_eq]
  cases cond with
  | false => exact .counter .here
  | true => exact .counter .skip

theorem sameRegsBut_loadFromI (s : State) (x : RegIdx) :
    sameRegsBut (fun r => r.toNat ≤ x.toNat) s (s.loadFromI (x.toNat + 1)) := by
  intro r hr
  rw [s.reg_loadFromI _ x.isLt, if_neg (by omega)]

/-- One case for each instruction, by the element that it writes. -/
theorem actsOrRaises_exec (i : Instr) (s : State) : ActsOrRaises i s (exec i s) := by
  cases i with
  | clearDisplay => exact .acts (.display (.head _) fun _ _ => rfl)
  | drawSprite x y n =>
    exact .ite (fun _ => .acts (.display (.tail _ (.head _)) (sameRegsBut_setReg s 0xF _)))
      fun _ => .raises rfl
  | ret => exact .ite (fun _ => .raises rfl) fun hlive => .acts (.pop (by decide) (Nat.pos_of_ne_zero hlive))
  | call nnn => exact .ite (fun _ => .raises rfl) fun hroom => .acts (.push (.head _) (Nat.lt_of_not_le hroom))
  | jump nnn => exact .acts (.counter (.jump (by rw [toNat_zextAddr]; omega)))
  | jumpWithOffset nnn => exact .acts (.counter (.jump (by rw [toNat_zextAddr_add_zextByte]; omega)))
  | skipEqImm | skipNeImm | skipEqReg | skipNeReg => exact .acts (.skips _)
  | skipIfKeyPressed | skipIfKeyNotPressed => exact .ite (fun _ => .acts (.skips _)) fun _ => .faults _
  | waitForKey x =>
    obtain ⟨b, hexec⟩ | hexec := exec_waitForKey_cases x s
    · exact hexec ▸ .acts (.registers (sameRegsBut_setReg s x b))
    · exact hexec ▸ .acts (.counter .rewind)
  | setImm x | addImm x | setReg x | orReg x | andReg x | xorReg x | randomAnd x | getDelayTimer x =>
    exact .acts (.registers (sameRegsBut_setReg s x _))
  | addReg x | subReg x | shiftRight x | subRegReverse x | shiftLeft x =>
    exact .acts (.registers (sameRegsBut_writeFlagThen s _ x _))
  | loadRegisters x =>
    refine .ite (fun _ => ?_) fun _ => .raises rfl
    rw [s.loadFromI_eq]
    exact .acts (.registers (s.loadFromI_eq _ ▸ sameRegsBut_loadFromI s x))
  | setIndex => exact .acts (.index (.head _))
  | addToIndex => exact .acts (.index (.tail _ (.head _)))
  | setIndexToGlyph => exact .acts (.index (.tail _ (.tail _ (.head _))))
  | storeBcd => exact .ite (fun _ => .acts (.memory (.head _))) fun _ => .raises rfl
  | storeRegisters => exact .ite (fun _ => .acts (.memory (.tail _ (.head _)))) fun _ => .raises rfl
  | setDelayTimer | setSoundTimer => exact .acts .timers

end

/-! ### Stack entries after a push (R102) -/

theorem State.stackEntry_pushPc {s : State} (hroom : s.sp < 12) (k : Nat) :
    s.pushPc.stackEntry k = if k = s.sp then s.pc else s.stackEntry k := by
  unfold State.stackEntry
  by_cases hk : k < 12
  · rw [dif_pos hk, dif_pos hk]
    simp only [State.pushPc_stack, Vector.getElem_setIfInBounds, eq_comm]
  · rw [dif_neg hk, dif_neg hk, if_neg (by omega)]

/-! ### The invariant -/

section
variable {i : Instr} {s t : State}

theorem PcTarget.toNat_le {w : Word} (h : PcTarget s w) (hlow : 2 ≤ s.pc.toNat) (hhigh : s.pc.toNat ≤ 0x1000) :
    w.toNat ≤ 0x10FE := by
  cases h with
  | here => omega
  | skip => bv_omega
  | rewind => bv_omega
  | jump hbound => exact hbound

/-- The bounds on `PC` are those of a fetched instruction's successor (R81, R82), which a call pushes. -/
theorem Acts.inv (h : Acts i s t) (hinv : s.Inv) (hrun : s.halted = false) (hlow : 2 ≤ s.pc.toNat)
    (hhigh : s.pc.toNat ≤ 0x1000) : t.Inv := by
  obtain ⟨hwf, hdepth, hrecord, htarget, hreturns⟩ := hinv
  cases h with
  | registers | index | timers | display => exact ⟨hwf, hdepth, hrecord, htarget, hreturns⟩
  | counter hw => exact ⟨hwf, hdepth, hrecord, fun _ => hw.toNat_le hlow hhigh, hreturns⟩
  | memory => exact ⟨Memory.wf_writeBytes hwf _ _, hdepth, hrecord, htarget, hreturns⟩
  | push _ hroom =>
    refine ⟨hwf, hroom, hrecord, fun _ => ?_, fun _ k hk => ?_⟩
    · rw [State.setPc_pc, toNat_zextAddr]
      omega
    · rw [State.setPc_stackEntry, State.stackEntry_pushPc hroom]
      split
      next => exact hhigh
      next hold => exact hreturns hrun k (Nat.lt_of_le_of_ne (Nat.le_of_lt_succ hk) hold)
  | pop _ hlive =>
    refine ⟨hwf, Nat.le_trans (Nat.sub_le _ _) hdepth, hrecord, fun _ => ?_, fun _ k hk => ?_⟩
    · exact Nat.le_trans (hreturns hrun _ (Nat.sub_lt hlive Nat.one_pos)) (by decide)
    · exact hreturns hrun k (Nat.lt_of_lt_of_le hk (Nat.sub_le _ _))

/-- A fatal error halts with its record, so only memory and the depth are left to check (log 2). -/
theorem inv_of_raise {kind : ErrorKind} {addr : Word} {opcode : Option Word} (hinv : s.Inv)
    (h : raise kind addr opcode s = .next t) : t.Inv := by
  obtain ⟨hwf, hdepth⟩ := s.afterFatal_bounds kind hinv.memory hinv.depth
  cases h
  exact ⟨hwf, hdepth, rfl, nofun, nofun⟩

theorem ActsOrRaises.inv {o : StepOutcome} (h : ActsOrRaises i s o) (hnext : o = .next t) (hinv : s.Inv)
    (hrun : s.halted = false) (hlow : 2 ≤ s.pc.toNat) (hhigh : s.pc.toNat ≤ 0x1000) : t.Inv := by
  cases h with
  | acts h =>
    cases hnext
    exact h.inv hinv hrun hlow hhigh
  | raises => exact inv_of_raise hinv hnext
  | faults => cases hnext

theorem State.toNat_advancePc_pc (hpc : s.canFetch) : s.advancePc.pc.toNat = s.pc.toNat + 2 := by
  rw [State.canFetch, memSize_eq] at hpc
  rw [State.advancePc_eq, State.setPc_pc]
  bv_omega

theorem State.Inv.advancePc (h : s.Inv) (hpc : s.canFetch) : s.advancePc.Inv := by
  obtain ⟨hwf, hdepth, hrecord, -, hreturns⟩ := h
  refine ⟨hwf, hdepth, hrecord, fun _ => ?_, hreturns⟩
  rw [State.toNat_advancePc_pc hpc]
  have := s.canFetch_iff.mp hpc
  omega

theorem step_inv (hinv : s.Inv) (h : step s = .next t) : t.Inv := by
  obtain ⟨hrun, ⟨-, hraise⟩ | ⟨hpc, i, -, hexec⟩ | ⟨hpc, e, -, hraise⟩⟩ := step_cases h
  · exact inv_of_raise hinv hraise
  · have hbound := s.canFetch_iff.mp hpc
    have hnext := State.toNat_advancePc_pc hpc
    exact (actsOrRaises_exec i s.advancePc).inv hexec (hinv.advancePc hpc) hrun (by omega) (by omega)
  · exact inv_of_raise (hinv.advancePc hpc) hraise

/-! ### The host operations -/

theorem State.inv_reset : State.reset.Inv :=
  ⟨Memory.wf_nil, Nat.zero_le _, rfl, fun _ => by decide, fun _ k hk => (Nat.not_lt_zero k hk).elim⟩

/-- A reset differs from the reset state in the count of draws alone, of which the invariant says nothing. -/
theorem State.inv_resetFrom (s : State) : s.resetFrom.Inv := by
  obtain ⟨hwf, hdepth, hrecord, htarget, hreturns⟩ := State.inv_reset
  exact ⟨hwf, hdepth, hrecord, htarget, hreturns⟩

theorem State.Inv.loadImage (h : s.Inv) (bytes : List Byte) : (s.loadImage bytes).Inv := by
  obtain ⟨hwf, hdepth, hrecord, htarget, hreturns⟩ := h
  exact ⟨Memory.wf_load hwf bytes, hdepth, hrecord, htarget, hreturns⟩

/-- The host's step takes the step, or on a halted CORE leaves the state (R87). -/
theorem perform_step_cases {reply : Reply} (h : perform .step s = .next (reply, t)) :
    step s = .next t ∨ t = s := by
  simp only [perform, performStep] at h
  split at h
  next hstep =>
    cases h
    exact .inl hstep
  next =>
    cases h
    exact .inr rfl
  next => cases h
  next => cases h

theorem perform_inv {o : Operation} {reply : Reply} (hinv : s.Inv) (h : perform o s = .next (reply, t)) : t.Inv := by
  cases o with
  | step =>
    obtain hstep | rfl := perform_step_cases h
    · exact step_inv hinv hstep
    · exact hinv
  | reset =>
    cases h
    exact s.inv_resetFrom
  | load bytes =>
    obtain ⟨-, rfl⟩ : _ ∧ (performLoad bytes s).2 = t := Prod.ext_iff.mp (Host.Outcome.next.inj h)
    obtain hload | hload := performLoad_cases bytes s
    · exact hload.symm ▸ hinv.loadImage bytes
    · exact hload.symm ▸ hinv
  | tickTimers | setKey | readFramebuffer | readCell | readDirty | clearDirty =>
    cases h
    obtain ⟨hwf, hdepth, hrecord, htarget, hreturns⟩ := hinv
    exact ⟨hwf, hdepth, hrecord, htarget, hreturns⟩

end

end Sys2Proof.Machine

namespace Sys2Proof
open Sys2Proof.Machine

/-! ### The obligations -/

/-- Settles O48: a step raises a fatal error or executes an instruction at the advanced `PC`, and both keep the invariant. -/
theorem stepKeepsTheInvariant : Obligations.StepKeepsTheInvariant := by
  unfold Obligations.StepKeepsTheInvariant
  exact fun _ _ => step_inv

/-- Settles O49: by induction over the list of operations, each of which keeps the invariant. -/
theorem everyExecutionKeepsTheInvariant : Obligations.EveryExecutionKeepsTheInvariant := by
  unfold Obligations.EveryExecutionKeepsTheInvariant
  exact performAll_keeps fun _ _ _ _ => perform_inv

/-- Settles O47: memory lists nothing, the stack is empty, no error is recorded, and `PC` is the entry point. -/
theorem resetMeetsTheInvariant : Obligations.ResetMeetsTheInvariant := by
  unfold Obligations.ResetMeetsTheInvariant
  exact State.inv_reset

end Sys2Proof
end

section
/-! What only the named instructions change, raise and read (R83 of 40_step_cycle.md, R169 of 60_exceptions.md, 10_state.md). -/

namespace Sys2Proof.Machine

/-! ### What a completed instruction leaves unchanged -/

section
variable {i : Instr} {s t : State}

theorem Acts.halted_eq (h : Acts i s t) : t.halted = s.halted := by
  cases h with
  | _ => rfl

theorem acts_of_completes (h : completes (exec i s) t) : Acts i s t := by
  have hout := actsOrRaises_exec i s
  generalize exec i s = o at h hout
  cases hout with
  | acts hacts =>
    cases h.1
    exact hacts
  | raises => exact (raiseBy_not_completes i _ s t h).elim
  | faults => cases h.1

theorem Acts.key_eq (h : Acts i s t) : t.key = s.key := by
  cases h with
  | _ => rfl

theorem Acts.sameRegsBut (h : Acts i s t) : sameRegsBut i.mayWrite s t := by
  cases h with
  | registers hregs | display _ hregs => exact hregs
  | _ => exact fun _ _ => rfl

theorem Acts.fb_eq (h : Acts i s t) (hname : i.mnemonic ∉ ["clear-display", "draw-sprite"]) : t.fb = s.fb := by
  cases h with
  | display hdraws => exact (hname hdraws).elim
  | _ => rfl

theorem Acts.mem_eq (h : Acts i s t) (hname : i.mnemonic ∉ ["store-bcd", "store-registers"]) : t.mem = s.mem := by
  cases h with
  | memory hstores => exact (hname hstores).elim
  | _ => rfl

theorem Acts.sameStack (h : Acts i s t) (hname : i.mnemonic ∉ ["call", "return"]) : sameStack s t := by
  cases h with
  | push htransfers | pop htransfers => exact (hname htransfers).elim
  | _ => exact ⟨rfl, rfl⟩

theorem Acts.i_eq (h : Acts i s t)
    (hname : i.mnemonic ∉ ["set-index", "add-to-index", "set-index-to-glyph"]) : t.i = s.i := by
  cases h with
  | index hindexes => exact (hname hindexes).elim
  | _ => rfl

theorem dt_eq_of_completes (h : completes (exec i s) t) (hname : i.mnemonic ≠ "set-delay-timer") : t.dt = s.dt := by
  obtain ⟨hdt, -, -⟩ := next_timers_dirty_of_completes h
  obtain hkept | ⟨x, rfl, -⟩ := i.nextDt_cases s
  · exact hdt.trans hkept
  · exact (hname rfl).elim

theorem st_eq_of_completes (h : completes (exec i s) t) (hname : i.mnemonic ≠ "set-sound-timer") : t.st = s.st := by
  obtain ⟨-, hst, -⟩ := next_timers_dirty_of_completes h
  obtain hkept | ⟨x, rfl, -⟩ := i.nextSt_cases s
  · exact hst.trans hkept
  · exact (hname rfl).elim

theorem dirty_eq_of_completes (h : completes (exec i s) t) :
    t.dirty = (s.dirty || decide (i.mnemonic ∈ ["clear-display", "draw-sprite"])) := by
  obtain ⟨-, -, hdirty⟩ := next_timers_dirty_of_completes h
  exact hdirty.trans (i.nextDirty_eq s)

theorem sameDisplay_of_completes (h : completes (exec i s) t)
    (hname : i.mnemonic ∉ ["clear-display", "draw-sprite"]) : sameDisplay s t := by
  have hfb := (acts_of_completes h).fb_eq hname
  refine ⟨fun r c => congrArg (cellOf · r c) hfb, ?_⟩
  rw [dirty_eq_of_completes h, decide_eq_false hname, Bool.or_false]

/-! ### The kinds of error by name (R169) -/

theorem mnemonic_errorKind_mem {kind : ErrorKind} (h : i.errorKind = some kind) :
    (i.mnemonic, kind) ∈ [("return", ErrorKind.stackUnderflow), ("call", .stackOverflow),
      ("draw-sprite", .memoryAccessOutOfBounds), ("store-bcd", .memoryAccessOutOfBounds),
      ("store-registers", .memoryAccessOutOfBounds), ("load-registers", .memoryAccessOutOfBounds)] := by
  cases i with
  | ret | call | drawSprite | storeBcd | storeRegisters | loadRegisters =>
    cases h
    simp [Instr.mnemonic]
  | _ => cases h

/-! ### The flag after a flag-writing instruction (R11) -/

theorem flag_zero_or_one_writeFlagThen (s : State) (b : Bool) {x : RegIdx} (result : Byte) (hx : x ≠ 0xF) :
    (s.writeFlagThen (flagByte b) x result).reg 0xF = 0 ∨ (s.writeFlagThen (flagByte b) x result).reg 0xF = 1 := by
  rw [State.reg_writeFlagThen_flag s _ result hx]
  exact flagByte_eq b

/-- The flag-writing arithmetic instructions (R116 to R120). -/
theorem flag_zero_or_one_of_arithmetic (h : completes (exec i s) t)
    (hname : i.mnemonic ∈ ["add-reg", "sub-reg", "shift-right", "sub-reg-reverse", "shift-left"])
    (hx : fieldX (encode i) ≠ 0xF) : t.reg 0xF = 0 ∨ t.reg 0xF = 1 := by
  cases i with
  | addReg x y | subReg x y | shiftRight x y | subRegReverse x y | shiftLeft x y =>
    cases h.1
    exact flag_zero_or_one_writeFlagThen s _ _ (by simpa [encode] using hx)
  | _ => simp [Instr.mnemonic] at hname

/-- draw-sprite writes the flag last (R141). -/
theorem flag_zero_or_one_of_drawSprite {x y : RegIdx} {n : BitVec 4} (h : completes (exec (.drawSprite x y n) s) t) :
    t.reg 0xF = 0 ∨ t.reg 0xF = 1 := by
  obtain ⟨-, rfl⟩ := ite_raiseBy_completes h
  rw [State.setVf_eq, State.reg_setReg_same]
  exact flagByte_eq _

end

end Sys2Proof.Machine

namespace Sys2Proof
open Sys2Proof.Machine

/-! ### The obligations -/

/-- Settles O50: each update that an instruction can make writes one group of elements, and bears the names of its
instructions. -/
theorem onlyTheNamedInstructionsChangeState : Obligations.OnlyTheNamedInstructionsChangeState := by
  unfold Obligations.OnlyTheNamedInstructionsChangeState
  intro i s t _ h
  have hacts := acts_of_completes h
  refine ⟨hacts.key_eq, fun hdirty => ?_, sameDisplay_of_completes h, fun hname a => ?_, hacts.sameStack, hacts.i_eq,
    dt_eq_of_completes h, st_eq_of_completes h⟩
  · rw [dirty_eq_of_completes h, hdirty, Bool.true_or]
  · exact congrArg (Memory.read · a) (hacts.mem_eq hname)

/-- Settles O51: the updates keep the registers an instruction does not name, and a flag is a byte of one bit. -/
theorem onlyTheNamedRegistersChange : Obligations.OnlyTheNamedRegistersChange := by
  unfold Obligations.OnlyTheNamedRegistersChange
  refine fun i s t _ h => ⟨(acts_of_completes h).sameRegsBut, flag_zero_or_one_of_arithmetic h, fun hname => ?_⟩
  cases i with
  | drawSprite => exact flag_zero_or_one_of_drawSprite h
  | _ => simp [Instr.mnemonic] at hname

/-- Settles O52: an instruction that acts does not halt, and the others raise by `raiseBy`. -/
theorem eachInstructionRaisesOneKindOfError : Obligations.EachInstructionRaisesOneKindOfError := by
  unfold Obligations.EachInstructionRaisesOneKindOfError
  intro i s t hrun hnext hhalted
  have hout := actsOrRaises_exec i s
  generalize exec i s = o at hnext hout
  cases hout with
  | acts hacts =>
    cases hnext
    rw [hacts.halted_eq, hrun] at hhalted
    cases hhalted
  | raises hraised =>
    cases hnext
    exact ⟨_, rfl, mnemonic_errorKind_mem hraised⟩
  | faults => cases hnext

end Sys2Proof
end

section
/-! What no step reads (R15, R17, R22 of 10_state.md): `ST`, `DIRTY` and the stack entries at or past the depth, by one comparison of the
steps of a state and of the same state with these overwritten. -/

namespace Sys2Proof.Machine

/-! ### Veils -/

/-- Past the twelfth entry the stack reads 0 (log 8). -/
theorem State.stackEntry_eq_getD (s : State) (k : Nat) : s.stackEntry k = (s.stack[k]?).getD 0 := by
  by_cases hk : k < 12
  · rw [s.stack_getElem?_eq_stackEntry hk, Option.getD_some]
  · rw [State.stackEntry, dif_neg hk, Vector.getElem?_eq_none (Nat.le_of_not_lt hk), Option.getD_none]

/-- A way to overwrite `ST`, `DIRTY` and, by the depth, the stack, that a push or a pop after it does not notice. -/
structure Veil where
  st : Byte → Byte
  dirty : Bool → Bool
  stack : Nat → Vector Word 12 → Vector Word 12
  st_idem : ∀ b, st (st b) = st b
  dirty_idem : ∀ d, dirty (dirty d) = dirty d
  stack_idem : ∀ n v, stack n (stack n v) = stack n v
  stack_push : ∀ n v w, stack (n + 1) ((stack n v).setIfInBounds n w) = stack (n + 1) (v.setIfInBounds n w)
  stack_pop : ∀ n v, stack n (stack (n + 1) v) = stack n v
  stack_live : ∀ n v k, k < n → (stack n v)[k]? = v[k]?

namespace Veil

/-- The state with the veil over it. -/
def hide (m : Veil) (s : State) : State :=
  { s with st := m.st s.st, dirty := m.dirty s.dirty, stack := m.stack s.sp s.stack }

/-- The outcome with the veil over its next state. -/
def hideNext (m : Veil) : StepOutcome → StepOutcome
  | .next s => .next (m.hide s)
  | .fault r => .fault r
  | .refused r => .refused r

/-- Two outcomes are the same but for what the veil hides. -/
def Agree (m : Veil) (o p : StepOutcome) : Prop := m.hideNext o = m.hideNext p

section
variable (m : Veil) (s : State)

theorem hide_hide : m.hide (m.hide s) = m.hide s := by
  simp only [hide, m.st_idem, m.dirty_idem, m.stack_idem]

theorem hide_sp : (m.hide s).sp = s.sp := rfl

/-- An update that commutes with the veil. -/
theorem agree_hide : m.Agree (.next s) (.next (m.hide s)) :=
  congrArg Host.Outcome.next (m.hide_hide s).symm

variable {m} in
theorem Agree.ite {p : Prop} [Decidable p] {a b c d : StepOutcome} (hpos : p → m.Agree a c) (hneg : ¬ p → m.Agree b d) :
    m.Agree (if p then a else b) (if p then c else d) := by
  split
  next hp => exact hpos hp
  next hp => exact hneg hp

/-- The error state keeps the stack under the veil or is free (log 2). -/
theorem agree_raise (kind : ErrorKind) (addr : Word) (opcode : Option Word) :
    m.Agree (raise kind addr opcode s) (raise kind addr opcode (m.hide s)) := by
  cases kind with
  | pcOutOfBounds => exact m.agree_hide { s with halted := true, err := some ⟨.pcOutOfBounds, addr, opcode⟩ }
  | stackOverflow => simp [Agree, hideNext, raise_eq, State.afterFatal, State.unspecified, hide, m.stack_idem]
  | stackUnderflow | memoryAccessOutOfBounds | unknownOpcode => rfl

theorem agree_pushPc_setPc (w : Word) : m.Agree (.next (s.pushPc.setPc w)) (.next ((m.hide s).pushPc.setPc w)) := by
  simp [Agree, hideNext, State.pushPc, State.setPc, hide, m.st_idem, m.dirty_idem, m.stack_push]

theorem stackEntry_hide {k : Nat} (hk : k < s.sp) : (m.hide s).stackEntry k = s.stackEntry k := by
  rw [State.stackEntry_eq_getD, State.stackEntry_eq_getD]
  exact congrArg (Option.getD · 0) (m.stack_live s.sp s.stack k hk)

theorem agree_popPc (hlive : s.sp ≠ 0) : m.Agree (.next s.popPc) (.next (m.hide s).popPc) := by
  obtain ⟨n, hn⟩ := Nat.exists_eq_succ_of_ne_zero hlive
  have hentry : (m.hide s).stackEntry (s.sp - 1) = s.stackEntry (s.sp - 1) := m.stackEntry_hide s (by omega)
  refine congrArg Host.Outcome.next ?_
  rw [State.popPc, State.popPc, hide_sp, hentry]
  simp [hide, m.st_idem, m.dirty_idem, m.stack_pop, hn]

theorem agree_display (v : Vector Byte 16) (fb : Framebuffer) :
    m.Agree (.next { s with v := v, fb := fb, dirty := true })
      (.next { m.hide s with v := v, fb := fb, dirty := true }) := by
  simp [Agree, hideNext, hide, m.st_idem, m.stack_idem]

theorem agree_setSt (b : Byte) : m.Agree (.next (s.setSt b)) (.next ((m.hide s).setSt b)) := by
  simp [Agree, hideNext, State.setSt, hide, m.dirty_idem, m.stack_idem]

theorem agree_skipIf (cond : Bool) : m.Agree (.next (s.skipIf cond)) (.next ((m.hide s).skipIf cond)) := by
  rw [State.skipIf_eq, State.skipIf_eq]
  exact m.agree_hide _

theorem loadFromI_hide (k : Nat) : (m.hide s).loadFromI k = m.hide (s.loadFromI k) := by
  induction k with
  | zero => rfl
  | succ k ih =>
    rw [State.loadFromI, ih]
    rfl

theorem agree_waitForKey (x : RegIdx) :
    m.Agree (exec (.waitForKey x) s) (exec (.waitForKey x) (m.hide s)) := by
  cases hkey : s.lowestKey with
  | none =>
    have hnone := s.lowestKey_eq_none.mp hkey
    rw [exec_waitForKey_of_none hnone, exec_waitForKey_of_none (s := m.hide s) hnone]
    exact m.agree_hide _
  | some k =>
    obtain ⟨hpressed, hlowest⟩ := (s.lowestKey_eq_some k).mp hkey
    rw [exec_waitForKey_of_pressed hpressed hlowest, exec_waitForKey_of_pressed (s := m.hide s) hpressed hlowest]
    exact m.agree_hide _

/-- No instruction reads what a veil hides. -/
theorem agree_exec (i : Instr) : m.Agree (exec i s) (exec i (m.hide s)) := by
  cases i with
  | ret => exact .ite (fun _ => m.agree_raise s _ _ _) fun hlive => m.agree_popPc s hlive
  | call => exact .ite (fun _ => m.agree_raise s _ _ _) fun _ => m.agree_pushPc_setPc s _
  | clearDisplay => exact m.agree_display s _ _
  | drawSprite => exact .ite (fun _ => m.agree_display s _ _) fun _ => m.agree_raise s _ _ _
  | storeBcd | storeRegisters => exact .ite (fun _ => m.agree_hide _) fun _ => m.agree_raise s _ _ _
  | loadRegisters x =>
    refine .ite (fun _ => ?_) fun _ => m.agree_raise s _ _ _
    rw [loadFromI_hide]
    exact m.agree_hide _
  | skipEqImm | skipNeImm | skipEqReg | skipNeReg => exact m.agree_skipIf s _
  | skipIfKeyPressed | skipIfKeyNotPressed => exact .ite (fun _ => m.agree_skipIf s _) fun _ => rfl
  | waitForKey x => exact m.agree_waitForKey s x
  | setSoundTimer => exact m.agree_setSt s _
  | _ => exact m.agree_hide _

/-- No step reads what a veil hides. -/
theorem agree_step : m.Agree (step s) (step (m.hide s)) := by
  by_cases hhalted : s.halted = true
  · rw [step_halted hhalted, step_halted (s := m.hide s) hhalted]
    rfl
  have hrun := Bool.eq_false_of_not_eq_true hhalted
  by_cases hpc : s.canFetch
  · cases hdecode : decodeWord s.fetch16 with
    | ok i =>
      rw [step_decoded hrun hpc hdecode, step_decoded (s := m.hide s) hrun hpc hdecode]
      exact m.agree_exec s.advancePc i
    | error e =>
      rw [step_undecoded hrun hpc hdecode, step_undecoded (s := m.hide s) hrun hpc hdecode]
      exact m.agree_raise s.advancePc _ _ _
  · rw [step_outOfBounds hrun hpc, step_outOfBounds (s := m.hide s) hrun hpc]
    exact m.agree_raise s _ _ _

end

/-! ### Two states that are the same but for what a veil hides -/

section
variable {m : Veil} {s t s' : State}

theorem agree_step_of_hide_eq (h : m.hide s = m.hide t) : m.Agree (step s) (step t) :=
  calc m.hideNext (step s)
      = m.hideNext (step (m.hide s)) := m.agree_step s
    _ = m.hideNext (step (m.hide t)) := by rw [h]
    _ = m.hideNext (step t) := (m.agree_step t).symm

theorem Agree.next {o : StepOutcome} (h : m.Agree (.next s') o) : ∃ t', o = .next t' ∧ m.hide s' = m.hide t' := by
  cases o with
  | next t' => exact ⟨t', rfl, Host.Outcome.next.inj h⟩
  | fault | refused => cases h

theorem Agree.fault {f : Fault} {o : StepOutcome} (h : m.Agree (.fault f) o) : o = .fault f := by
  cases o with
  | fault => exact congrArg Host.Outcome.fault (Host.Outcome.fault.inj h).symm
  | next | refused => cases h

end

/-! ### The two veils -/

/-- Over `ST` and `DIRTY` (R17, R22). -/
def stAndDirty : Veil where
  st := fun _ => 0
  dirty := fun _ => false
  stack := fun _ v => v
  st_idem := fun _ => rfl
  dirty_idem := fun _ => rfl
  stack_idem := fun _ _ => rfl
  stack_push := fun _ _ _ => rfl
  stack_pop := fun _ _ => rfl
  stack_live := fun _ _ _ _ => rfl

theorem stAndDirty_hide_eq_iff {s t : State} : stAndDirty.hide s = stAndDirty.hide t ↔ agreeButStAndDirty s t := Iff.rfl

/-- The stack with 0 in the entries at or past depth `n`. -/
def clearDead (n : Nat) (v : Vector Word 12) : Vector Word 12 := Vector.ofFn fun k => if k.val < n then v[k] else 0

theorem getElem_clearDead (n : Nat) (v : Vector Word 12) {k : Nat} (hk : k < 12) :
    (clearDead n v)[k] = if k < n then v[k] else 0 :=
  Vector.getElem_ofFn hk

theorem clearDead_getElem? {n k : Nat} (v : Vector Word 12) (hlive : k < n) : (clearDead n v)[k]? = v[k]? := by
  by_cases hk : k < 12
  · rw [Vector.getElem?_eq_getElem hk, Vector.getElem?_eq_getElem hk, getElem_clearDead n v hk, if_pos hlive]
  · rw [Vector.getElem?_eq_none (Nat.le_of_not_lt hk), Vector.getElem?_eq_none (Nat.le_of_not_lt hk)]

theorem clearDead_eq_iff {n : Nat} {v w : Vector Word 12} :
    clearDead n v = clearDead n w ↔ ∀ k < n, v[k]? = w[k]? := by
  refine ⟨fun h k hlive => ?_, fun h => Vector.ext fun k hk => ?_⟩
  · rw [← clearDead_getElem? v hlive, h, clearDead_getElem? w hlive]
  · rw [getElem_clearDead n v hk, getElem_clearDead n w hk]
    split
    next hlive => simpa [hk] using h k hlive
    next => rfl

/-- Over the stack entries at or past the depth (R15). -/
def deadEntries : Veil where
  st := fun b => b
  dirty := fun d => d
  stack := clearDead
  st_idem := fun _ => rfl
  dirty_idem := fun _ => rfl
  stack_idem := fun n v => clearDead_eq_iff.mpr fun k => clearDead_getElem? v
  stack_push := fun n v w => clearDead_eq_iff.mpr fun k hk => by
    rw [Vector.getElem?_setIfInBounds, Vector.getElem?_setIfInBounds]
    split
    next => rfl
    next hold => exact clearDead_getElem? v (by omega)
  stack_pop := fun n v => clearDead_eq_iff.mpr fun k hk => clearDead_getElem? v (Nat.lt_succ_of_lt hk)
  stack_live := fun n v k => clearDead_getElem? v

theorem deadEntries_hide_eq {s : State} {dead : Vector Word 12} (h : ∀ k < s.sp, dead[k]? = s.stack[k]?) :
    deadEntries.hide s = deadEntries.hide { s with stack := dead } :=
  congrArg (fun v => { s with stack := v }) (clearDead_eq_iff.mpr h).symm

theorem eq_of_deadEntries_hide_eq {s t : State} (h : deadEntries.hide s = deadEntries.hide t) :
    t = { s with stack := t.stack } ∧ ∀ k < s.sp, t.stack[k]? = s.stack[k]? := by
  cases s
  cases t
  simp only [hide, deadEntries, State.mk.injEq] at h
  obtain ⟨rfl, rfl, rfl, hstack, rfl, rfl, rfl, rfl, rfl, rfl, rfl, rfl, rfl, rfl⟩ := h
  exact ⟨rfl, clearDead_eq_iff.mp hstack.symm⟩

end Veil

end Sys2Proof.Machine

namespace Sys2Proof
open Sys2Proof.Machine

/-! ### The obligations -/

/-- Settles O57: no step reads what the veil over `ST` and `DIRTY` hides. -/
theorem soundTimerAndDirtyFlagAreNeverRead : Obligations.SoundTimerAndDirtyFlagAreNeverRead := by
  unfold Obligations.SoundTimerAndDirtyFlagAreNeverRead
  intro s t h
  have hagree := Veil.agree_step_of_hide_eq (Veil.stAndDirty_hide_eq_iff.mpr h)
  exact ⟨fun s' hnext => Veil.Agree.next (hnext ▸ hagree), fun f hfault => Veil.Agree.fault (hfault ▸ hagree)⟩

/-- Settles O58: no step reads what the veil over the dead entries hides. -/
theorem deadStackEntriesAreNeverRead : Obligations.DeadStackEntriesAreNeverRead := by
  unfold Obligations.DeadStackEntriesAreNeverRead
  intro s s' dead _ hdead ⟨hnext, hrun⟩
  have hagree := Veil.agree_step_of_hide_eq (Veil.deadEntries_hide_eq hdead)
  rw [hnext] at hagree
  obtain ⟨t', hother, hhide⟩ := hagree.next
  obtain ⟨ht', hlive⟩ := Veil.eq_of_deadEntries_hide_eq hhide
  exact ⟨t'.stack, ⟨hother.trans (congrArg _ ht'), hrun⟩, hlive⟩

end Sys2Proof
end

section
/-! Runs of a few steps: the fetched instruction (40_step_cycle.md), jump, call and return (41_flow_control.md), stored code
(20_memory.md), waiting (R88), boot and the halted state. -/

namespace Sys2Proof

/-! ### Two bytes decode as their word -/

theorem decodeWord_of_decodeBytes {hi lo : Byte} {rest : List Byte} {i : Instr}
    (h : decodeBytes (hi :: lo :: rest) = .ok (i, rest)) : decodeWord (wordOfBytes hi lo) = .ok i := by
  simp only [decodeBytes] at h
  split at h
  next hdecode =>
    cases h
    exact hdecode
  next => cases h

end Sys2Proof

namespace Sys2Proof.Machine

/-! ### A step that fetches a known instruction -/

section
variable {s t : State}

/-- R80 to R83, with the fetched bytes given. -/
theorem step_of_fetched_bytes {i : Instr} {rest : List Byte} (hrun : s.halted = false) (hpc : s.pc.toNat ≤ 0xFFE)
    (hdecode : decodeBytes (s.readByte s.pc.toNat :: s.readByte (s.pc.toNat + 1) :: rest) = .ok (i, rest)) :
    step s = exec i { s with pc := s.pc + 2 } :=
  step_decoded hrun (s.canFetch_iff.mpr hpc) (decodeWord_of_decodeBytes hdecode)

/-- R80 to R83, with the fetched word given. -/
theorem step_of_fetch16 (i : Instr) (hrun : s.halted = false) (hpc : s.pc.toNat ≤ 0xFFE) (hword : s.fetch16 = encode i) :
    step s = exec i s.advancePc :=
  step_decoded hrun (s.canFetch_iff.mpr hpc) (hword ▸ decodeWord_encode i)

theorem State.fetch16_of_bytes {a : Nat} {hi lo : Byte} (hpc : s.pc.toNat = a) (hhi : s.readByte a = hi)
    (hlo : s.readByte (a + 1) = lo) : s.fetch16 = wordOfBytes hi lo := by
  rw [State.fetch16, hpc, hhi, hlo]

/-! ### Jump, call and return -/

/-- R101 -/
theorem exec_jump (nnn : Addr) (s : State) : exec (.jump nnn) s = .next (s.setPc (zextAddr nnn)) := rfl

/-- R102 -/
theorem exec_call_of_room {nnn : Addr} (hroom : s.sp < 12) :
    exec (.call nnn) s = .next (s.pushPc.setPc (zextAddr nnn)) :=
  if_neg hroom.not_ge

theorem onlyStackAndPc_update (s : State) (pc : Word) (stack : Vector Word 12) (sp : Nat) :
    onlyStackAndPc s { s with pc := pc, stack := stack, sp := sp } :=
  ⟨fun _ => rfl, rfl, fun _ => rfl, ⟨rfl, rfl⟩, rfl, ⟨fun _ _ => rfl, rfl⟩, rfl, rfl, rfl⟩

theorem State.pushPc_stack_getElem?_same (s : State) (hroom : s.sp < 12) : s.pushPc.stack[s.sp]? = some s.pc := by
  rw [State.pushPc_stack, Vector.getElem?_setIfInBounds_self_of_lt hroom]

theorem State.pushPc_stack_getElem?_other (s : State) {k : Nat} (hk : k ≠ s.sp) : s.pushPc.stack[k]? = s.stack[k]? := by
  rw [State.pushPc_stack, Vector.getElem?_setIfInBounds_ne hk.symm]

/-- The state after a call at `s` and a return at its target. -/
theorem State.popPc_pushPc (s : State) (hroom : s.sp < 12) (w : Word) :
    (s.pushPc.setPc w).popPc = { s with stack := s.pushPc.stack } := by
  have hentry : s.pushPc.stackEntry s.sp = s.pc := by rw [State.stackEntry_pushPc hroom, if_pos rfl]
  calc (s.pushPc.setPc w).popPc
      = { s with pc := s.pushPc.stackEntry s.sp, stack := s.pushPc.stack } := rfl
    _ = { s with stack := s.pushPc.stack } := by rw [hentry]

/-- R102, by the fetched word. -/
theorem step_call_of_room {nnn : Addr} (hrun : s.halted = false) (hpc : s.pc.toNat ≤ 0xFFE)
    (hword : s.fetch16 = 0x2#4 ++ nnn) (hroom : s.sp < 12) :
    step s = .next (s.advancePc.pushPc.setPc (zextAddr nnn)) :=
  (step_of_fetch16 (.call nnn) hrun hpc hword).trans (exec_call_of_room (s := s.advancePc) hroom)

/-- R100, by the fetched word. -/
theorem step_ret_of_live (hrun : s.halted = false) (hpc : s.pc.toNat ≤ 0xFFE) (hword : s.fetch16 = 0x00EE)
    (hlive : 0 < s.sp) : step s = .next s.advancePc.popPc :=
  (step_of_fetch16 .ret hrun hpc hword).trans (exec_ret_of_pos (s := s.advancePc) hlive)

/-! ### Steps that change nothing -/

theorem performAll_replicate_step (h : step s = .next s) (n : Nat) : performAll (List.replicate n .step) s = .next s := by
  induction n with
  | zero => rfl
  | succ n ih => rw [List.replicate_succ, performAll_cons_next (perform_step_next h), ih]

/-- R88, R101 -/
theorem step_selfJump (h : s.selfJump) : step s = .next s := by
  obtain ⟨hrun, hpc, nnn, hdecode, htarget⟩ := h
  rw [step_decoded hrun hpc hdecode, exec_jump, htarget]
  rfl

/-- R88, R153 -/
theorem step_waitForKey_of_none {x : RegIdx} (hrun : s.halted = false) (hpc : s.pc.toNat ≤ 0xFFE)
    (hword : s.fetch16 = 0xF#4 ++ x ++ 0x0A#8) (hnone : ∀ j, s.keyDown j = false) : step s = .next s := by
  rw [step_of_fetch16 (.waitForKey x) hrun hpc hword, exec_waitForKey_of_none (s := s.advancePc) hnone]
  have hback : s.advancePc.pc - 2 = s.pc := s.fetchAddr_advancePc
  rw [hback]
  rfl

/-- After the host presses `k`, `k` is the lowest key. -/
theorem step_waitForKey_after_setKey {x : RegIdx} (k : KeyIdx) (hrun : s.halted = false) (hpc : s.pc.toNat ≤ 0xFFE)
    (hword : s.fetch16 = 0xF#4 ++ x ++ 0x0A#8) (hnone : ∀ j, s.keyDown j = false) :
    step (s.setKey k true) = .next ((s.setKey k true).advancePc.setReg x (k.setWidth 8)) := by
  rw [step_of_fetch16 (s := s.setKey k true) (.waitForKey x) hrun hpc hword]
  refine exec_waitForKey_of_pressed ?_ fun j hj => ?_
  · simp
  · have hne : j ≠ k := by rintro rfl; omega
    simp [hne, hnone]

/-! ### Boot and halt -/

theorem performAll_reset_load {bytes : List Byte} (s : State) (hfits : bytes.length ≤ 3584) :
    performAll [.reset, .load bytes] s = .next (s.resetFrom.loadImage bytes) := by
  have hreset : perform .reset s = .next (.done, s.resetFrom) := rfl
  rw [performAll_cons_next hreset, performAll_cons_next (perform_load_of_fits s.resetFrom hfits)]
  rfl

theorem State.toNat_resetFrom_pc (s : State) : s.resetFrom.pc.toNat = 0x200 := rfl

theorem State.canFetch_resetFrom (s : State) : s.resetFrom.canFetch := by
  rw [State.canFetch_iff, State.toNat_resetFrom_pc]
  decide

theorem State.fetch16_resetFrom (s : State) : s.resetFrom.fetch16 = 0 := by
  rw [State.fetch16, State.toNat_resetFrom_pc, State.readByte_resetFrom, State.readByte_resetFrom,
    Memory.resetByte_of_ge (by decide), Memory.resetByte_of_ge (by decide)]
  rfl

/-- R87, R170 -/
theorem perform_of_halted {o : Operation} (hhalted : s.halted = true) (hreset : o ≠ .reset) :
    ∃ reply t, perform o s = .next (reply, t) ∧ t.halted = true ∧ t.err = s.err := by
  cases o with
  | reset => exact (hreset rfl).elim
  | step => exact ⟨_, _, perform_step_halted hhalted, hhalted, rfl⟩
  | load bytes =>
    refine ⟨(performLoad bytes s).1, (performLoad bytes s).2, rfl, ?_⟩
    obtain hload | hload := performLoad_cases bytes s
    all_goals
      rw [hload]
      exact ⟨hhalted, rfl⟩
  | tickTimers | setKey | readFramebuffer | readCell | readDirty | clearDirty => exact ⟨_, _, rfl, hhalted, rfl⟩

end

end Sys2Proof.Machine

namespace Sys2Proof
open Sys2Proof.Machine

/-! ### The obligations -/

/-- Settles O4: the checks before the dispatch pass, and the two bytes decode as the fetched word. -/
theorem stepRunsTheDecodedInstruction : Obligations.StepRunsTheDecodedInstruction := by
  unfold Obligations.StepRunsTheDecodedInstruction
  exact fun _ _ _ => step_of_fetched_bytes

/-- Settles O10: the jump is one write of `PC`. -/
theorem jumpSetsThePc : Obligations.JumpSetsThePc := by
  unfold Obligations.JumpSetsThePc
  refine fun nnn => ⟨decodeWord_encode (.jump nnn), fun s => ?_⟩
  exact ⟨_, exec_jump nnn s, toNat_zextAddr nnn, onlyPc_setPc s _⟩

/-- Settles O11: with room on the stack the call is a push and one write of `PC`. -/
theorem callPushesTheNextAddress : Obligations.CallPushesTheNextAddress := by
  unfold Obligations.CallPushesTheNextAddress
  refine fun nnn => ⟨decodeWord_encode (.call nnn), fun s hroom => ?_⟩
  exact ⟨_, exec_call_of_room hroom, rfl, toNat_zextAddr nnn, s.pushPc_stack_getElem?_same hroom,
    fun k => s.pushPc_stack_getElem?_other, onlyStackAndPc_update s _ _ _⟩

/-- Settles O53: the return pops the entry that the call pushed. -/
theorem callThenReturnRoundTrips : Obligations.CallThenReturnRoundTrips := by
  unfold Obligations.CallThenReturnRoundTrips
  intro s nnn hrun hpc hroom hword htarget hhi hlo
  have hword' : (s.advancePc.pushPc.setPc (zextAddr nnn)).fetch16 = 0x00EE :=
    State.fetch16_of_bytes (s := s.advancePc.pushPc.setPc (zextAddr nnn)) (toNat_zextAddr nnn) hhi hlo
  have hret := step_ret_of_live (s := s.advancePc.pushPc.setPc (zextAddr nnn)) hrun
    (by rwa [State.setPc_pc, toNat_zextAddr]) hword' (Nat.succ_pos s.sp)
  refine ⟨_, _, step_call_of_room hrun hpc hword hroom,
    hret.trans (congrArg Host.Outcome.next (s.advancePc.popPc_pushPc hroom (zextAddr nnn + 2))), rfl, rfl,
    fun k hk => ?_, onlyStackAndPc_update s _ _ _⟩
  exact s.advancePc.pushPc_stack_getElem?_other hk.ne

/-- Settles O54: the bytes at `I + k` and `I + k + 1` are the registers just stored. -/
theorem storedCodeIsFetchedNext : Obligations.StoredCodeIsFetchedNext := by
  unfold Obligations.StoredCodeIsFetchedNext
  intro x k s hrun hk hfit
  refine ⟨_, exec_storeRegisters_of_fits hfit, hrun, fun hpc i hdecode => ?_⟩
  have hsucc : (k + 1).toNat = k.toNat + 1 := by bv_omega
  refine step_of_fetched_bytes (rest := []) hrun (by omega) ?_
  rw [hpc, Nat.add_assoc, ← hsucc, s.readByte_storeAtI_regsUpTo hk.le hfit,
    s.readByte_storeAtI_regsUpTo (hsucc.trans_le hk) hfit]
  exact hdecode

/-- Settles O55: the jump rewrites `PC` to what it was, and such a step can be repeated. -/
theorem selfJumpIsAFixedPoint : Obligations.SelfJumpIsAFixedPoint := by
  unfold Obligations.SelfJumpIsAFixedPoint
  exact fun s h => ⟨step_selfJump h, performAll_replicate_step (step_selfJump h)⟩

/-- Settles O56: the steps before the key is set change nothing, and then it is the lowest key. -/
theorem waitForKeySpinsUntilAKeyIsSet : Obligations.WaitForKeySpinsUntilAKeyIsSet := by
  unfold Obligations.WaitForKeySpinsUntilAKeyIsSet
  intro s x k n hrun hpc hword hnone
  have hspin := performAll_replicate_step (step_waitForKey_of_none hrun hpc hword hnone) n
  have hset : perform (.setKey k true) s = .next (.done, s.setKey k true) := rfl
  have hstep := step_waitForKey_after_setKey k hrun hpc hword hnone
  refine ⟨hspin, (s.setKey k true).advancePc.setReg x (k.setWidth 8), ?_, ?_, rfl⟩
  · rw [performAll_append hspin, performAll_cons_next hset, performAll_cons_next (perform_step_next hstep)]
    rfl
  · rw [State.reg_setReg_same, BitVec.toNat_setWidth_of_le (by decide)]

/-- Settles O41: the setter writes one latch. -/
theorem setKeyChangesOneLatch : Obligations.SetKeyChangesOneLatch := by
  unfold Obligations.SetKeyChangesOneLatch
  exact fun k p s => ⟨s.setKey k p, rfl, fun j => s.keyDown_setKey k j p, rfl, fun _ => rfl, rfl, fun _ => rfl, ⟨rfl, rfl⟩,
    ⟨rfl, rfl⟩, ⟨fun _ _ => rfl, rfl⟩, rfl, rfl, rfl⟩

/-- Settles O44: the image's first two bytes lie at the entry point. -/
theorem bootRunsImageBytesZeroAndOne : Obligations.BootRunsImageBytesZeroAndOne := by
  unfold Obligations.BootRunsImageBytesZeroAndOne
  intro s b₀ b₁ rest hlength
  have hfits : (b₀ :: b₁ :: rest).length ≤ 3584 := hlength
  refine ⟨_, performAll_reset_load s hfits, rfl, rfl, fun i hdecode => ?_⟩
  have hfirst : (s.resetFrom.loadImage (b₀ :: b₁ :: rest)).readByte 0x200 = b₀ :=
    s.resetFrom.readByte_loadImage_image hfits (j := 0) (Nat.succ_pos _)
  have hsecond : (s.resetFrom.loadImage (b₀ :: b₁ :: rest)).readByte (0x200 + 1) = b₁ :=
    s.resetFrom.readByte_loadImage_image hfits (j := 1) (Nat.succ_lt_succ (Nat.succ_pos _))
  refine step_of_fetched_bytes (rest := []) rfl (s.resetFrom.canFetch_iff.mp s.canFetch_resetFrom) ?_
  rw [State.loadImage_pc, State.toNat_resetFrom_pc, hfirst, hsecond]
  exact hdecode

/-- Settles O45: program space of a reset memory reads 0, and the word 0 does not decode. -/
theorem unloadedCoreRaisesUnknownOpcode : Obligations.UnloadedCoreRaisesUnknownOpcode := by
  unfold Obligations.UnloadedCoreRaisesUnknownOpcode
  intro s
  refine ⟨s.resetFrom, rfl, ?_⟩
  have hillegal : decodeWord s.resetFrom.fetch16 = .error (.unknownOpcode 0) := by
    rw [State.fetch16_resetFrom]
    rfl
  rw [step_undecoded rfl s.canFetch_resetFrom hillegal, State.fetch16_resetFrom]
  exact raise_failsWith .unknownOpcode 0x200 (some 0) _

/-- Settles O46: reset clears the latch, and every other operation leaves the latch and the record. -/
theorem onlyResetLeavesTheHaltedState : Obligations.OnlyResetLeavesTheHaltedState := by
  unfold Obligations.OnlyResetLeavesTheHaltedState
  intro o s hhalted
  by_cases hreset : o = .reset
  · subst hreset
    exact ⟨.done, s.resetFrom, rfl, rfl, rfl⟩
  · simpa only [if_neg hreset] using perform_of_halted hhalted hreset

end Sys2Proof
end

section
/-! Drawing (44_display.md): the cells and the flag that draw-sprite leaves, and what a second draw of the same sprite does. -/

namespace Sys2Proof.Machine

theorem flagByte_eq_one_iff (b : Bool) : flagByte b = 1 ↔ b = true := by
  cases b with
  | false => decide
  | true => decide

/-- The state that a draw-sprite whose rows fit memory leaves. -/
def State.drawn (s : State) (x y : RegIdx) (n : BitVec 4) : State :=
  let drawing := (s.spritePixels (s.reg x) (s.reg y) n.toNat).foldl togglePixel (s.fb, false)
  (s.present drawing.1).setVf (flagByte drawing.2)

section
variable {x y : RegIdx} {n : BitVec 4} {s : State}

/-! ### The instruction as an update -/

theorem drawSprite_check_iff :
    (n = 0 ∨ s.eaInMemory (n.toNat - 1)) ↔ n.toNat = 0 ∨ s.i.toNat + (n.toNat - 1) < 4096 := by
  rw [← BitVec.toNat_inj, State.eaInMemory, State.ea_eq, memSize_eq]
  rfl

/-- R141 -/
theorem exec_drawSprite_of_fits (hfit : n.toNat = 0 ∨ s.i.toNat + (n.toNat - 1) < 4096) :
    exec (.drawSprite x y n) s = .next (s.drawn x y n) :=
  if_pos (drawSprite_check_iff.mpr hfit)

/-- R164 -/
theorem exec_drawSprite_of_outOfBounds (hrows : 0 < n.toNat) (hout : 4096 ≤ s.i.toNat + (n.toNat - 1)) :
    exec (.drawSprite x y n) s = raiseBy (.drawSprite x y n) .memoryAccessOutOfBounds s :=
  if_neg (drawSprite_check_iff.not.mpr (by omega))

/-! ### What a draw leaves -/

theorem cell_drawn_of_covers {r : Fin 32} {c : Fin 64} (h : s.spriteCovers (s.reg x) (s.reg y) n r c) :
    (s.drawn x y n).cell r c = !s.cell r c :=
  (cellOf_foldl_toggle _ (nodup_spritePixels s _ _ n) _ r c).trans (if_pos ((mem_spritePixels s _ _ n r c).mpr h))

theorem cell_drawn_of_not_covers {r : Fin 32} {c : Fin 64} (h : ¬ s.spriteCovers (s.reg x) (s.reg y) n r c) :
    (s.drawn x y n).cell r c = s.cell r c :=
  (cellOf_foldl_toggle _ (nodup_spritePixels s _ _ n) _ r c).trans (if_neg ((mem_spritePixels s _ _ n r c).not.mpr h))

theorem flag_drawn_eq (s : State) (x y : RegIdx) (n : BitVec 4) :
    (s.drawn x y n).reg 0xF =
      flagByte ((s.spritePixels (s.reg x) (s.reg y) n.toNat).any fun p => s.cell p.1 p.2) := by
  rw [State.drawn, State.setVf_eq, State.reg_setReg_same, foldl_toggle_snd _ (nodup_spritePixels s _ _ n), Bool.false_or]
  rfl

theorem flag_drawn_eq_one_iff :
    (s.drawn x y n).reg 0xF = 1 ↔ ∃ r c, s.spriteCovers (s.reg x) (s.reg y) n r c ∧ s.cell r c = true := by
  rw [flag_drawn_eq, flagByte_eq_one_iff, List.any_eq_true]
  simp only [Prod.exists, mem_spritePixels]

theorem flag_drawn_eq_zero (h : ¬ ∃ r c, s.spriteCovers (s.reg x) (s.reg y) n r c ∧ s.cell r c = true) :
    (s.drawn x y n).reg 0xF = 0 := by
  rw [← flag_drawn_eq_one_iff] at h
  rw [flag_drawn_eq] at h ⊢
  exact (flagByte_eq _).resolve_right h

theorem onlyDisplayVfAndPc_drawn (s : State) (x y : RegIdx) (n : BitVec 4) :
    onlyDisplayVfAndPc s (s.drawn x y n) :=
  ⟨sameRegsBut_setReg s 0xF _, rfl, fun _ => rfl, ⟨rfl, rfl⟩, ⟨rfl, rfl⟩, rfl, rfl, rfl, rfl⟩

/-! ### A second draw of the same sprite -/

/-- Drawing changes no byte of the sprite, no coordinate but one in `VF`, and not `I`. -/
theorem spriteCovers_drawn (hx : x ≠ 0xF) (hy : y ≠ 0xF) (r : Fin 32) (c : Fin 64) :
    (s.drawn x y n).spriteCovers ((s.drawn x y n).reg x) ((s.drawn x y n).reg y) n r c ↔
      s.spriteCovers (s.reg x) (s.reg y) n r c := by
  obtain ⟨hregs, -⟩ := onlyDisplayVfAndPc_drawn s x y n
  rw [hregs x hx, hregs y hy]
  rfl

theorem cell_drawn_drawn (hx : x ≠ 0xF) (hy : y ≠ 0xF) (r : Fin 32) (c : Fin 64) :
    ((s.drawn x y n).drawn x y n).cell r c = s.cell r c := by
  have hcovers := spriteCovers_drawn (s := s) (n := n) hx hy r c
  by_cases h : s.spriteCovers (s.reg x) (s.reg y) n r c
  · rw [cell_drawn_of_covers (hcovers.mpr h), cell_drawn_of_covers h, Bool.not_not]
  · rw [cell_drawn_of_not_covers (hcovers.not.mpr h), cell_drawn_of_not_covers h]

/-- The second draw meets a covered cell that is on exactly where the first found it off (log 17). -/
theorem flag_drawn_drawn_eq_one_iff (hx : x ≠ 0xF) (hy : y ≠ 0xF) :
    ((s.drawn x y n).drawn x y n).reg 0xF = 1 ↔
      ∃ r c, s.spriteCovers (s.reg x) (s.reg y) n r c ∧ s.cell r c = false := by
  rw [flag_drawn_eq_one_iff]
  refine exists_congr fun r => exists_congr fun c => ?_
  rw [spriteCovers_drawn hx hy]
  refine and_congr_right fun h => ?_
  rw [cell_drawn_of_covers h, Bool.not_eq_true']

theorem byte_ne_zero_iff (b : Byte) : b ≠ 0 ↔ ∃ k < 8, b.getLsbD (7 - k) = true := by
  constructor
  · contrapose!
    refine fun hoff => BitVec.eq_of_getLsbD_eq fun j hj => ?_
    have hbit := hoff (7 - j) (by omega)
    rw [Nat.sub_sub_self (Nat.le_of_lt_succ hj)] at hbit
    exact (Bool.eq_false_of_not_eq_true hbit).trans BitVec.getLsbD_zero.symm
  · rintro ⟨k, -, hbit⟩ rfl
    exact Bool.false_ne_true (BitVec.getLsbD_zero.symm.trans hbit)

theorem exists_spriteCovers_iff (s : State) (vx vy : Byte) (n : BitVec 4) :
    (∃ r c, s.spriteCovers vx vy n r c) ↔ ∃ row < n.toNat, s.readByte (s.i.toNat + row) ≠ 0 := by
  simp only [byte_ne_zero_iff]
  constructor
  · rintro ⟨r, c, row, hrow, k, hk, hbit, -, -⟩
    exact ⟨row, hrow, k, hk, hbit⟩
  · rintro ⟨row, hrow, k, hk, hbit⟩
    exact ⟨Fin.ofNat 32 (vy.toNat + row), Fin.ofNat 64 (vx.toNat + k), row, hrow, k, hk, hbit, rfl, rfl⟩

end

end Sys2Proof.Machine

namespace Sys2Proof
open Sys2Proof.Machine

/-! ### The obligations -/

/-- Settles O31: the draw toggles the list of cells the sprite covers, which are distinct, so no cell is toggled twice. -/
theorem drawSpriteTogglesTheCellsItCovers : Obligations.DrawSpriteTogglesTheCellsItCovers := by
  unfold Obligations.DrawSpriteTogglesTheCellsItCovers
  refine fun x y n => ⟨decodeWord_encode (.drawSprite x y n), fun s hfit => ?_, fun s hrows hout => ?_⟩
  · exact ⟨_, exec_drawSprite_of_fits hfit, fun _ _ => cell_drawn_of_covers, fun _ _ => cell_drawn_of_not_covers,
      flag_drawn_eq_one_iff.mpr, flag_drawn_eq_zero, rfl, rfl, onlyDisplayVfAndPc_drawn s x y n⟩
  · exact exec_drawSprite_of_outOfBounds hrows hout ▸ raiseBy_failsWith (.drawSprite x y n) .memoryAccessOutOfBounds s

/-- Settles O32: the second draw covers the cells of the first, so it toggles each back and meets those that the first
turned on. -/
theorem drawingTwiceRestoresTheFramebuffer : Obligations.DrawingTwiceRestoresTheFramebuffer := by
  unfold Obligations.DrawingTwiceRestoresTheFramebuffer
  intro x y n s hx hy hfit
  refine ⟨_, _, exec_drawSprite_of_fits hfit, exec_drawSprite_of_fits (s := s.drawn x y n) hfit,
    cell_drawn_drawn hx hy, flag_drawn_drawn_eq_one_iff hx hy, fun hoff => ?_⟩
  rw [flag_drawn_drawn_eq_one_iff hx hy, ← exists_spriteCovers_iff s (s.reg x) (s.reg y) n]
  simp only [hoff, and_true]

end Sys2Proof
end
